-- ==== Sys2Proof/Word.lean ====
section
/-! DEFINITION. The word types of the block (00_scope.md R8): a command word and a channel byte. -/

namespace Sys2Proof

/-- A command word as presented on `CMD_WORD[63:0]` (30_encoding.md R70). -/
abbrev CmdWord := BitVec 64

/-- A buffer byte, which is also one channel intensity (20_memory.md R50; glossary of 00_scope.md R11). -/
abbrev Byte := BitVec 8

end Sys2Proof
end

