-- ==== Sys2Proof/Syntax.lean ====
section
/-! DEFINITION. The commands of the block: one constructor per row of opcode_table.json (30_encoding.md R72). -/

namespace Sys2Proof

/-- A decoded command. `present` is the buffer-present bit `P` (R70); a field the command ignores (R73) is no operand.
Colours are bytes in the document's parameter order R, G, B. LED positions are numbers, which the rules multiply and
compare as unbounded integers (00_scope.md R8); `Instr.wf` says which fit their 16-bit field. -/
inductive Instr where
  /-- `CLEAR` (40_buffer_commands.md R101). -/
  | clear (present : Bool)
  /-- `SETCOLOR r, g, b, pos` (40_buffer_commands.md R103). -/
  | setcolor (present : Bool) (r g b : Byte) (pos : Nat)
  /-- `SETRANGE r, g, b, start, end` (40_buffer_commands.md R105). -/
  | setrange (present : Bool) (r g b : Byte) (start stop : Nat)
  /-- `TRANSMIT` (41_encoder.md R130). -/
  | transmit (present : Bool)
  deriving DecidableEq, Repr

end Sys2Proof
end

