-- ==== Sys2Proof/WellFormed.lean ====
section
/-! DEFINITION. Which commands have an encoding: every LED position fits its unsigned 16-bit field
(30_encoding.md R70, R71, R77). The colour operands fit by their type. -/

namespace Sys2Proof

/-- The bound of the index fields `A` and `E`: positions in `[0, 65535]` (R71). -/
abbrev indexBound : Nat := 65536

/-- The operands of a command fit the fields of its word (R77: "pos, start and end in 0..65535"). -/
def Instr.wf : Instr → Bool
  | .clear _ => true
  | .setcolor _ _ _ _ pos => decide (pos < indexBound)
  | .setrange _ _ _ _ start stop => decide (start < indexBound) && decide (stop < indexBound)
  | .transmit _ => true

end Sys2Proof
end

