-- ==== Sys2Proof/Decode.lean ====
section
/-! DEFINITION. Decoding a 64-bit command word (30_encoding.md R70 to R76) and encoding a command (R79). -/

namespace Sys2Proof

/-! ## Fields (R70, R71): unsigned, no sign extension, scaling or offset -/

/-- `OP = w[63:60]`. -/
def fieldOp (w : CmdWord) : BitVec 4 := w.extractLsb' 60 4

/-- `P = w[59]`, the buffer-present bit. -/
def fieldP (w : CmdWord) : Bool := w.getLsbD 59

/-- `RSV = w[58:56]`, which must be 0. -/
def fieldRsv (w : CmdWord) : BitVec 3 := w.extractLsb' 56 3

/-- `RV = w[55:48]`, red. -/
def fieldRv (w : CmdWord) : Byte := w.extractLsb' 48 8

/-- `GV = w[47:40]`, green. -/
def fieldGv (w : CmdWord) : Byte := w.extractLsb' 40 8

/-- `BV = w[39:32]`, blue. -/
def fieldBv (w : CmdWord) : Byte := w.extractLsb' 32 8

/-- `A = w[31:16]`: `position` of SETCOLOR, `startIndex` of SETRANGE. -/
def fieldA (w : CmdWord) : Nat := (w.extractLsb' 16 16).toNat

/-- `E = w[15:0]`: `endIndex` of SETRANGE. -/
def fieldE (w : CmdWord) : Nat := (w.extractLsb' 0 16).toNat

/-! ## Decoding (R74) -/

/-- Why a word is a reserved encoding (R75, 60_exceptions.md R171): every one is rejected with `INVALID_CMD`. -/
inductive ReservedWhy where
  /-- `RSV ≠ 0`, whatever `OP` is. -/
  | reservedBits (rsv : BitVec 3)
  /-- `RSV = 0` and `OP` is 0x0 or 0x5 .. 0xF. -/
  | reservedOpcode (op : BitVec 4)
  deriving DecidableEq, Repr

/-- What a word decodes to: a command, or `RESERVED` with the reason by name. -/
inductive Decoded where
  | command (i : Instr)
  | reserved (why : ReservedWhy)
  deriving DecidableEq, Repr

/-- `Decode(w)` (R74): total on all words; `RSV` is looked at first, then `OP`. Ignored fields are not read (R73). -/
def decode (w : CmdWord) : Decoded :=
  if fieldRsv w ≠ 0 then .reserved (.reservedBits (fieldRsv w))
  else if fieldOp w = 1 then .command (.clear (fieldP w))
  else if fieldOp w = 2 then .command (.setcolor (fieldP w) (fieldRv w) (fieldGv w) (fieldBv w) (fieldA w))
  else if fieldOp w = 3 then
    .command (.setrange (fieldP w) (fieldRv w) (fieldGv w) (fieldBv w) (fieldA w) (fieldE w))
  else if fieldOp w = 4 then .command (.transmit (fieldP w))
  else .reserved (.reservedOpcode (fieldOp w))

/-- The command of a decoded word, if it is one. -/
def Decoded.command? : Decoded → Option Instr
  | .command i => some i
  | .reserved _ => none

/-- The reader the host's table check uses: `w` numbers the bits as opcode_table.json does, which are the bits of the one
64-bit word (R70); a bit at or above `nbits` is 0. -/
def decodeTableWord (nbits w : Nat) : Option Instr :=
  (decode (BitVec.ofNat 64 (w % 2 ^ nbits))).command?

/-! ## Encoding (R70, R79): ignored fields and `RSV` are written 0 (R77) -/

/-- One word from its fields, most significant first, in the format of R70. -/
def packWord (op : BitVec 4) (p : Bool) (rv gv bv : Byte) (a e : Nat) : CmdWord :=
  op ++ BitVec.ofBool p ++ (0 : BitVec 3) ++ rv ++ gv ++ bv ++ BitVec.ofNat 16 a ++ BitVec.ofNat 16 e

/-- The word of a command. -/
def encode : Instr → CmdWord
  | .clear p => packWord 1 p 0 0 0 0 0
  | .setcolor p r g b pos => packWord 2 p r g b pos 0
  | .setrange p r g b start stop => packWord 3 p r g b start stop
  | .transmit p => packWord 4 p 0 0 0 0 0

/-! ## The opcode table (opcode_table.json) -/

/-- One row: a word `w` matches when `w &&& mask = pattern`. -/
structure OpcodeRow where
  mnemonic : String
  mask : CmdWord
  pattern : CmdWord
  deriving DecidableEq, Repr

/-- The four rows of opcode_table.json, in its order. -/
def opcodeTable : List OpcodeRow :=
  [ { mnemonic := "CLEAR", mask := 0xF700000000000000, pattern := 0x1000000000000000 },
    { mnemonic := "SETCOLOR", mask := 0xF700000000000000, pattern := 0x2000000000000000 },
    { mnemonic := "SETRANGE", mask := 0xF700000000000000, pattern := 0x3000000000000000 },
    { mnemonic := "TRANSMIT", mask := 0xF700000000000000, pattern := 0x4000000000000000 } ]

/-- The row's test of a word. -/
def OpcodeRow.matches (row : OpcodeRow) (w : CmdWord) : Bool := w &&& row.mask == row.pattern

/-- The mnemonic of a command, as the table spells it. -/
def Instr.mnemonic : Instr → String
  | .clear _ => "CLEAR"
  | .setcolor _ _ _ _ _ => "SETCOLOR"
  | .setrange _ _ _ _ _ _ => "SETRANGE"
  | .transmit _ => "TRANSMIT"

/-- The bits of a word that a command's row of R73 marks "read", with `OP` and `RSV`: the fields that decide the outcome. -/
def Instr.readMask : Instr → CmdWord
  | .clear _ => 0xFF00000000000000
  | .setcolor _ _ _ _ _ => 0xFFFFFFFFFFFF0000
  | .setrange _ _ _ _ _ _ => 0xFFFFFFFFFFFFFFFF
  | .transmit _ => 0xFF00000000000000

end Sys2Proof
end

