-- ==== Sys2Proof/Config.lean ====
section
/-! DEFINITION. The build parameters of the block (00_scope.md R5), their legality (R6), the derived constants (R7),
the pulse-shape functions (10_state.md R35) and the informative conversion of cycles to time (70_reset_and_hazards.md R200).
Every parameter is OPEN in the spec. A configuration is plain data carried beside the registers (log 1), so that a statement
about every state is a statement about every configuration. `F_CLK` and `BUF_INIT` are arguments where they are used
(`durationNs`, `Machine.State.resetOf`): no rule of the step reads them. -/

namespace Sys2Proof

/-- The parameters of R5 that a rule of the step reads. Field names follow the spec's `N`, `T0H_CYC`, `T0L_CYC`,
`T1H_CYC`, `T1L_CYC`, `RESET_CYC`. -/
structure Config where
  n : Nat
  t0hCyc : Nat
  t0lCyc : Nat
  t1hCyc : Nat
  t1lCyc : Nat
  resetCyc : Nat
  deriving DecidableEq, Repr

/-- The largest cycle parameter, `2^32 − 1` (R6 condition 2). -/
abbrev Config.maxCyc : Nat := 4294967295

/-- The largest LED count (R6 condition 1). -/
abbrev Config.maxLeds : Nat := 21845

/-- R6: what a legal configuration satisfies. -/
abbrev Config.Legal (c : Config) : Prop :=
  (1 ≤ c.n ∧ c.n ≤ Config.maxLeds) ∧
  ((1 ≤ c.t0hCyc ∧ c.t0hCyc ≤ Config.maxCyc) ∧ (1 ≤ c.t0lCyc ∧ c.t0lCyc ≤ Config.maxCyc) ∧
    (1 ≤ c.t1hCyc ∧ c.t1hCyc ≤ Config.maxCyc) ∧ (1 ≤ c.t1lCyc ∧ c.t1lCyc ≤ Config.maxCyc) ∧
    (1 ≤ c.resetCyc ∧ c.resetCyc ≤ Config.maxCyc)) ∧
  c.t0hCyc + c.t0lCyc = c.t1hCyc + c.t1lCyc ∧
  c.t0hCyc < c.t1hCyc

/-- `NBYTES = 3·N` (R7). -/
def Config.nbytes (c : Config) : Nat := 3 * c.n

/-- `NBITS = 8·NBYTES` (R7). -/
def Config.nbits (c : Config) : Nat := 8 * c.nbytes

/-- `TBIT = T0H_CYC + T0L_CYC`, the nominal bit period (R7). -/
def Config.tbit (c : Config) : Nat := c.t0hCyc + c.t0lCyc

/-- `FRAME_CYC = NBITS·TBIT + RESET_CYC` (R7). -/
def Config.frameCyc (c : Config) : Nat := c.nbits * c.tbit + c.resetCyc

/-- `H(b)`: high time of a bit of value `b`, in cycles (10_state.md R35). -/
def Config.highCyc (c : Config) (b : Bool) : Nat := if b then c.t1hCyc else c.t0hCyc

/-- `L(b)`: low time of a bit of value `b`, in cycles (10_state.md R35). -/
def Config.lowCyc (c : Config) (b : Bool) : Nat := if b then c.t1lCyc else c.t0lCyc

/-- The toy configuration `CT` of 95_test_vectors.md with its LED count. -/
def Config.toy (n : Nat) : Config :=
  { n := n, t0hCyc := 1, t0lCyc := 3, t1hCyc := 3, t1lCyc := 1, resetCyc := 5 }

/-- The duration of `k` cycles in nanoseconds at clock frequency `fClk` in Hz: `k · 10^9 / F_CLK` (R200; informative,
no rule reads it). `F_CLK` is a positive rational here (log 12). -/
def Config.durationNs (fClk : Rat) (k : Nat) : Rat := (k : Rat) * 1000000000 / fClk

/-- The duration of one frame in nanoseconds, `FRAME_CYC · 10^9 / F_CLK` (R200; informative). -/
def Config.frameNs (c : Config) (fClk : Rat) : Rat := Config.durationNs fClk c.frameCyc

end Sys2Proof
end

