-- ==== Sys2Proof/Machine/Memory.lean ====
section
/-! DEFINITION. The frame buffer as data (20_memory.md R50): a list of (offset, byte) cells in one canonical form, and the
operations that read and write it. What an unlisted offset reads as is `unlistedByte` (log 3). -/

namespace Sys2Proof.Machine

/-- Buffer contents: cells at strictly rising offsets, none holding `unlistedByte`. -/
abbrev Memory := List Host.Cell

/-- What an offset that no cell lists reads as: 0x00 (log 3). -/
def unlistedByte : Byte := 0x00

/-- The canonical form: offsets strictly rising and no cell equal to what an unlisted offset reads as. -/
abbrev Memory.wf (m : Memory) : Prop :=
  m.Pairwise (fun c d => c.1 < d.1) ∧ ∀ c ∈ m, c.2 ≠ unlistedByte

/-- Every cell lies at an offset of a buffer of `nbytes` bytes. -/
abbrev Memory.within (nbytes : Nat) (m : Memory) : Prop := ∀ c ∈ m, c.1 < nbytes

/-- `BUF[i]`: the byte at an offset. -/
def Memory.readByte : Memory → Nat → Byte
  | [], _ => unlistedByte
  | (b, w) :: rest, a => if a = b then w else Memory.readByte rest a

/-- `BUF[i] <- v`: write one byte, keeping the canonical form. -/
def Memory.writeByte : Memory → Nat → Byte → Memory
  | [], a, v => if v = unlistedByte then [] else [(a, v)]
  | (b, w) :: rest, a, v =>
    if a < b then (if v = unlistedByte then (b, w) :: rest else (a, v) :: (b, w) :: rest)
    else if a = b then (if v = unlistedByte then rest else (a, v) :: rest)
    else (b, w) :: Memory.writeByte rest a v

/-- Write the bytes of a list at consecutive offsets from `a`. -/
def Memory.writeBytes (m : Memory) (a : Nat) : List Byte → Memory
  | [] => m
  | v :: vs => Memory.writeBytes (Memory.writeByte m a v) (a + 1) vs

/-- The contents of a buffer of `nbytes` bytes made from a list of bytes, offset 0 first; a shorter list leaves the rest
0x00, a longer one is cut. -/
def Memory.ofBytes (nbytes : Nat) (bytes : List Byte) : Memory := Memory.writeBytes [] 0 (bytes.take nbytes)

/-- The first `nbytes` bytes as a list, offset 0 first. -/
def Memory.toBytes (m : Memory) (nbytes : Nat) : List Byte := (List.range nbytes).map (Memory.readByte m)

/-- `for i in 0 .. nbytes-1: BUF[i] <- 0x00` (40_buffer_commands.md R101). -/
def Memory.zeroBytes (m : Memory) : Nat → Memory
  | 0 => m
  | k + 1 => Memory.writeByte (Memory.zeroBytes m k) k 0x00

end Sys2Proof.Machine
end

