-- ==== Sys2Proof/Machine/State.lean ====
section
/-! DEFINITION. The architectural state (10_state.md R23), the port inputs the host drives (R22), the reasons a step can stop,
and the state right after reset (R36, 70_reset_and_hazards.md R191). -/

namespace Sys2Proof.Machine

/-- `PHASE`, the sequencer phase (10_state.md R24); its 2-bit value is `Phase.code`. -/
inductive Phase where
  /-- 0: no frame in progress. -/
  | idle
  /-- 1: the high part of a bit. -/
  | emitHigh
  /-- 2: the low part of a bit. -/
  | emitLow
  /-- 3: the reset gap at the end of a frame. -/
  | resetGap
  deriving DecidableEq, Repr

/-- `RESULT`, the outcome of the last accepted command (10_state.md R30); the value 3 is never held, so it has no
constructor (log 10). Its 2-bit value is `ResultCode.code`. -/
inductive ResultCode where
  /-- 0: the command was performed. -/
  | ok
  /-- 1: rejected for an invalid argument. -/
  | invalidArg
  /-- 2: the command word is a reserved encoding. -/
  | invalidCmd
  deriving DecidableEq, Repr

/-- The values the host drives on the input ports in one cycle (10_state.md R22). -/
structure PortInput where
  /-- `RST`, the block reset. -/
  rst : Bool
  /-- `CMD_VALID`. -/
  cmdValid : Bool
  /-- `CMD_WORD[63:0]`. -/
  cmdWord : CmdWord
  /-- `RD_ADDR[15:0]`. -/
  rdAddr : BitVec 16
  deriving DecidableEq, Repr

/-- A cycle in which the host asks for nothing: every input port 0. -/
def PortInput.quiet : PortInput := { rst := false, cmdValid := false, cmdWord := 0, rdAddr := 0 }

/-- The machine's state: the registers of R23, the build parameters (which nothing changes, R34; log 1) and the port values
of the coming cycles (log 4). -/
structure State where
  /-- The build parameters of 00_scope.md R5. -/
  cfg : Config
  /-- `BUF[0 .. NBYTES-1]`, the frame buffer. -/
  buf : Memory
  /-- `PHASE`. -/
  phase : Phase
  /-- `BYTE_IDX`: offset of the byte being sent. -/
  byteIdx : BitVec 16
  /-- `BIT_IDX`: bit of that byte being sent, 7 down to 0. -/
  bitIdx : BitVec 3
  /-- `CUR`: value of the bit being sent. -/
  cur : Bool
  /-- `CNT`: cycles left in the current phase, minus one. -/
  cnt : BitVec 32
  /-- `RESULT`. -/
  result : ResultCode
  /-- What the host drives in this cycle (first) and the coming ones; past the end it drives `PortInput.quiet`. -/
  inputs : List PortInput
  deriving DecidableEq, Repr

/-- Why a step stops with a fault. -/
inductive Fault where
  /-- Raised by TRANSMIT and StepLow when the bit to be sent lies outside `0 .. NBYTES-1` (20_memory.md R56 says no access
  does; log 7). Safe: no state that meets the invariant `Inv` reaches it. -/
  | bufferOffsetOutOfRange
  deriving DecidableEq, Repr

/-- Why a step is refused. -/
inductive Refusal where
  /-- Raised by an arm of `exec` whose instruction has no meaning yet; none is left. Safe. -/
  | notModelled (mnemonic : String)
  /-- Raised by `step` on a configuration that breaks 00_scope.md R6: no machine exists for it (60_exceptions.md R174;
  93_implementation_defined.md I5; log 2). Safe. -/
  | illegalConfiguration
  deriving DecidableEq, Repr

/-- The state after a reset (R36, R191) of the block built with `c`, its buffer holding `bufInit` (`BUF_INIT`), while the
host drives `inputs`. -/
def State.resetOf (c : Config) (bufInit : List Byte) (inputs : List PortInput) : State :=
  { cfg := c
    buf := Memory.ofBytes c.nbytes bufInit
    phase := .idle
    byteIdx := 0
    bitIdx := 0
    cur := false
    cnt := 0
    result := .ok
    inputs := inputs }

/-- The state after reset of one named block: the toy configuration with eight LEDs (log 1), a buffer of zeros (log 3), and
a host that presents nothing (log 4). Statements about reset are made of `State.resetOf`, for every configuration. -/
def State.reset : State := State.resetOf (Config.toy 8) [] []

end Sys2Proof.Machine
end

