-- ==== Sys2Proof/Machine/Ops.lean ====
section
/-! DEFINITION. The named register updates, and the shared ways a command ends: performed (`complete`) or rejected (`reject`).
The block has no trap (60_exceptions.md R170): the rejection is its one exception, and there is no return from it (R176). -/

namespace Sys2Proof.Machine

/-- What a step answers. -/
abbrev StepOutcome := Host.Outcome State Fault Refusal

/-! ## Register updates (`REG <- v`, 00_scope.md R9) -/

/-- `BUF <- m`. -/
def State.setBuf (m : Memory) (s : State) : State := { s with buf := m }

/-- `PHASE <- p`. -/
def State.setPhase (p : Phase) (s : State) : State := { s with phase := p }

/-- `BYTE_IDX <- b`. The rules store only values that fit (R8; log 9). -/
def State.setByteIdx (b : Nat) (s : State) : State := { s with byteIdx := BitVec.ofNat 16 b }

/-- `BIT_IDX <- k`. The rules store only values that fit (R8; log 9). -/
def State.setBitIdx (k : Nat) (s : State) : State := { s with bitIdx := BitVec.ofNat 3 k }

/-- `CUR <- v`. -/
def State.setCur (v : Bool) (s : State) : State := { s with cur := v }

/-- `CNT <- k`. The rules store only values that fit (R8; log 9). -/
def State.setCnt (k : Nat) (s : State) : State := { s with cnt := BitVec.ofNat 32 k }

/-- `RESULT <- r`. -/
def State.setResult (r : ResultCode) (s : State) : State := { s with result := r }

/-! ## Port inputs -/

/-- What the host drives in this cycle. -/
def State.input (s : State) : PortInput := s.inputs.headD PortInput.quiet

/-- What the host drives `j` cycles from now. -/
def State.inputAt (s : State) (j : Nat) : PortInput := (s.inputs[j]?).getD PortInput.quiet

/-- The clock edge, as far as the inputs go: the next cycle's port values come first. -/
def State.nextCycle (s : State) : State := { s with inputs := s.inputs.tail }

/-! ## Buffer access -/

/-- `BUF[i][k]`, for an offset that exists (20_memory.md R56). -/
def State.bufBit? (s : State) (i k : Nat) : Option Bool :=
  if i < s.cfg.nbytes then some ((s.buf.readByte i).getLsbD k) else none

/-- `BUF[3p] <- G; BUF[3p+1] <- R; BUF[3p+2] <- B`: one LED's triplet in wire order (20_memory.md R51,
40_buffer_commands.md R103). -/
def writeTriplet (m : Memory) (p : Nat) (r g b : Byte) : Memory :=
  Memory.writeBytes m (3 * p) [g, r, b]

/-- `for p in lo .. lo+count-1`: the same triplet at `count` consecutive positions (40_buffer_commands.md R105). -/
def writeSpan (m : Memory) (lo : Nat) (r g b : Byte) : Nat → Memory
  | 0 => m
  | k + 1 => writeTriplet (writeSpan m lo r g b k) (lo + k) r g b

/-! ## How a command ends -/

/-- `RESULT <- OK` after the command's own writes. -/
def complete (s : State) : StepOutcome := .next (s.setResult .ok)

/-- `raise Reject(code)` (00_scope.md R9, 60_exceptions.md R172): the only effect is `RESULT <- code`. The block takes its
next command as usual. -/
def reject (code : ResultCode) (s : State) : StepOutcome := .next (s.setResult code)

/-- Block reset (70_reset_and_hazards.md R190): the registers take the values of 10_state.md R36; `BUF` is not written. -/
def blockReset (s : State) : State :=
  (((((s.setPhase .idle).setByteIdx 0).setBitIdx 0).setCur false).setCnt 0).setResult .ok

end Sys2Proof.Machine
end

