-- ==== Sys2Proof/Machine/Operands.lean ====
section
/-! DEFINITION. The operand checks of the commands (60_exceptions.md R171): which arguments are invalid. The order of the
checks inside a command cannot be observed (R173). -/

namespace Sys2Proof.Machine

/-- A position operand is in `[0, N−1]` (40_buffer_commands.md R103, R105). -/
def positionInRange (c : Config) (p : Nat) : Bool := decide (p < c.n)

/-- SETCOLOR's operands are valid: buffer reference present and position in range (R103). -/
def setcolorArgsValid (c : Config) (present : Bool) (pos : Nat) : Bool := present && positionInRange c pos

/-- SETRANGE's operands are valid: buffer reference present, both bounds in range, span not degenerate (R105). -/
def setrangeArgsValid (c : Config) (present : Bool) (start stop : Nat) : Bool :=
  present && positionInRange c start && positionInRange c stop && !(start == stop)

/-- `lo <- min(A, E)` (R105). -/
def spanLo (start stop : Nat) : Nat := min start stop

/-- `hi − lo`, the number of LEDs in the half-open span `lo .. hi−1` with `hi <- max(A, E)` (R105; 90_conflicts.md C1). -/
def spanCount (start stop : Nat) : Nat := max start stop - min start stop

end Sys2Proof.Machine
end

