-- ==== Sys2Proof/Machine/BufferCommands.lean ====
section
/-! DEFINITION. The meanings of CLEAR, SETCOLOR and SETRANGE (40_buffer_commands.md). Each is the effect of the command in the
cycle it is accepted (R100); whether it is accepted is the cycle's business (`cycle`). -/

namespace Sys2Proof.Machine

/-- `CLEAR` (R101): every buffer byte 0. -/
def execClear (present : Bool) (s : State) : StepOutcome :=
  if present then complete (s.setBuf (s.buf.zeroBytes s.cfg.nbytes)) else reject .invalidArg s

/-- `SETCOLOR r, g, b, pos` (R103): one LED's triplet. -/
def execSetcolor (present : Bool) (r g b : Byte) (pos : Nat) (s : State) : StepOutcome :=
  if setcolorArgsValid s.cfg present pos then complete (s.setBuf (writeTriplet s.buf pos r g b))
  else reject .invalidArg s

/-- `SETRANGE r, g, b, start, end` (R105): one colour over the half-open span from the smaller bound. -/
def execSetrange (present : Bool) (r g b : Byte) (start stop : Nat) (s : State) : StepOutcome :=
  if setrangeArgsValid s.cfg present start stop then
    complete (s.setBuf (writeSpan s.buf (spanLo start stop) r g b (spanCount start stop)))
  else reject .invalidArg s

end Sys2Proof.Machine
end

