-- ==== Sys2Proof/Machine/Encoder.lean ====
section
/-! DEFINITION. The signal encoder (41_encoder.md): the meaning of TRANSMIT and the sequencer's step in each phase. -/

namespace Sys2Proof.Machine

/-- Enter EMIT_HIGH for bit `k` of byte `i` with value `v`: the five writes shared by TRANSMIT (R130) and StepLow (R133). -/
def startBit (i k : Nat) (v : Bool) (s : State) : State :=
  ((((s.setByteIdx i).setBitIdx k).setCur v).setCnt (s.cfg.highCyc v - 1)).setPhase .emitHigh

/-- `LastBit(b, k)` (R136): bit 0 of byte `NBYTES−1`. -/
def lastBit (c : Config) (i k : Nat) : Bool := decide (i = c.nbytes - 1) && decide (k = 0)

/-- `Next(b, k)` (R134): bit 7 down to bit 0, then the next byte. -/
def nextBit (i k : Nat) : Nat × Nat := if k = 0 then (i + 1, 7) else (i, k - 1)

/-- `TRANSMIT` (R130): start one frame at bit 7 of byte 0. -/
def execTransmit (present : Bool) (s : State) : StepOutcome :=
  if present then
    match s.bufBit? 0 7 with
    | some v => complete (startBit 0 7 v s)
    | none => .fault .bufferOffsetOutOfRange
  else reject .invalidArg s

/-- `CNT <- CNT - 1`, used while `CNT > 0`. -/
def countDown (s : State) : State := s.setCnt (s.cnt.toNat - 1)

/-- `StepHigh` (R132). -/
def stepHigh (s : State) : State :=
  if 0 < s.cnt.toNat then countDown s else (s.setPhase .emitLow).setCnt (s.cfg.lowCyc s.cur - 1)

/-- `StepLow` (R133). -/
def stepLow (s : State) : StepOutcome :=
  if 0 < s.cnt.toNat then .next (countDown s)
  else if lastBit s.cfg s.byteIdx.toNat s.bitIdx.toNat then
    .next ((s.setPhase .resetGap).setCnt (s.cfg.resetCyc - 1))
  else
    let nb := (nextBit s.byteIdx.toNat s.bitIdx.toNat).1
    let nk := (nextBit s.byteIdx.toNat s.bitIdx.toNat).2
    match s.bufBit? nb nk with
    | some v => .next (startBit nb nk v s)
    | none => .fault .bufferOffsetOutOfRange

/-- `StepGap` (R135). -/
def stepGap (s : State) : State := if 0 < s.cnt.toNat then countDown s else s.setPhase .idle

end Sys2Proof.Machine
end

