-- ==== Sys2Proof/Machine/Dispatch.lean ====
section
/-! DEFINITION. The effect of an accepted command (40_buffer_commands.md R100): one arm per row of opcode_table.json. -/

namespace Sys2Proof.Machine

def exec (i : Instr) (s : State) : Host.Outcome State Fault Refusal :=
  match i with
  | .clear present => Sys2Proof.Machine.execClear present s
  | .setcolor present r g b pos => Sys2Proof.Machine.execSetcolor present r g b pos s
  | .setrange present r g b start stop => Sys2Proof.Machine.execSetrange present r g b start stop s
  | .transmit present => Sys2Proof.Machine.execTransmit present s

end Sys2Proof.Machine
end

