-- ==== Sys2Proof/Machine/Flags.lean ====
section
/-! DEFINITION. The combinational flags and the output ports (10_state.md R22, R27 to R33): functions of the registers and of
this cycle's inputs. -/

namespace Sys2Proof.Machine

/-- The 2-bit value of `PHASE` (R24). -/
def Phase.code : Phase → BitVec 2
  | .idle => 0
  | .emitHigh => 1
  | .emitLow => 2
  | .resetGap => 3

/-- The 2-bit value of `RESULT` (R30). -/
def ResultCode.code : ResultCode → BitVec 2
  | .ok => 0
  | .invalidArg => 1
  | .invalidCmd => 2

/-- `BUSY = (PHASE ≠ IDLE)` (R27). -/
def busy (s : State) : Bool := !(s.phase == .idle)

/-- `CMD_READY = (PHASE = IDLE) ∧ (RST = 0)` (R28). -/
def cmdReady (s : State) : Bool := s.phase == .idle && !s.input.rst

/-- A command is accepted in this cycle (R28). -/
def accepted (s : State) : Bool := s.input.cmdValid && cmdReady s

/-- The `STATUS` output (R29): `{000, PHASE, BUSY, RESULT}`. -/
def status (s : State) : BitVec 8 :=
  (0 : BitVec 3) ++ s.phase.code ++ BitVec.ofBool (busy s) ++ s.result.code

/-- The `DOUT` output (R32): 1 exactly in EMIT_HIGH. -/
def dout (s : State) : Bool := s.phase == .emitHigh

/-- The read port's answer to an address (R33). -/
def readPort (s : State) (addr : BitVec 16) : Byte :=
  if addr.toNat < s.cfg.nbytes then s.buf.readByte addr.toNat else 0x00

/-- The `RD_DATA` output (R33). -/
def rdData (s : State) : Byte := readPort s s.input.rdAddr

end Sys2Proof.Machine
end

