-- ==== Sys2Proof/Machine/Cycle.lean ====
section
/-! DEFINITION. One CLK cycle of the block (41_encoder.md R131): reset, or the phase's step, or the accepted command. -/

namespace Sys2Proof.Machine

/-- `Execute(w)` (40_buffer_commands.md R100): a reserved word is rejected with `INVALID_CMD` before any argument check
(60_exceptions.md R173). -/
def executeWord (w : CmdWord) (s : State) : StepOutcome :=
  match decode w with
  | .command i => exec i s
  | .reserved _ => reject .invalidCmd s

/-- The step of the cycle with port inputs `inp`, on the registers `s` (R131). `RD_ADDR` is not read. -/
def stepWith (inp : PortInput) (s : State) : StepOutcome :=
  if inp.rst then .next (blockReset s)
  else
    match s.phase with
    | .idle => if inp.cmdValid then executeWord inp.cmdWord s else .next s
    | .emitHigh => .next (stepHigh s)
    | .emitLow => stepLow s
    | .resetGap => .next (stepGap s)

/-- One cycle: an illegal configuration has no machine (00_scope.md R6; log 2); otherwise the step with this cycle's inputs,
and the clock moves on to the next cycle's. -/
def cycle (s : State) : StepOutcome :=
  if s.cfg.Legal then stepWith s.input s.nextCycle else .refused .illegalConfiguration

/-- The port input that presents the command word `w` in a cycle without reset, at `inp`'s read address. -/
def PortInput.presenting (w : CmdWord) (inp : PortInput) : PortInput :=
  { inp with rst := false, cmdValid := true, cmdWord := w }

/-- `s` with the word `w` presented in this very cycle, in IDLE, where it is accepted (10_state.md R28; log 5). -/
def presentWord (w : CmdWord) (s : State) : State :=
  { s with phase := .idle, inputs := PortInput.presenting w s.input :: s.inputs.tail }

end Sys2Proof.Machine
end

