-- ==== Sys2Proof/Machine/Step.lean ====
section
/-! DEFINITION. The machine's step: one CLK cycle. -/

namespace Sys2Proof.Machine

/-- One step is one CLK cycle (00_scope.md R10, 41_encoder.md R131). -/
def step (s : State) : Host.Outcome State Fault Refusal := cycle s

/-- `s` with the command whose bits are `w` (a bit at or above `nbits` is 0) presented so that the very next step accepts
it. The block fetches nothing (20_memory.md R64): a program is what the host presents, cycle by cycle (log 5). -/
def State.withFetchWord (s : State) (nbits w : Nat) : State := presentWord (BitVec.ofNat 64 (w % 2 ^ nbits)) s

end Sys2Proof.Machine
end

