-- ==== Sys2Proof/Machine/Assembler.lean ====
section
/-! DEFINITION. The command listing, the spec's "assembly" (30_encoding.md R77 to R79): its lines, the operand checks, the
pseudo-instructions' expansions, and the reading of its text. Tooling only: no step of the machine uses it
(92_eei_decisions.md D23). What R77 leaves open of the text is in log 13. -/

namespace Sys2Proof.Machine

/-- One line of a listing. `nobuf` is the suffix `.nobuf`, which gives `P = 0` (R77). Operands are as written, before the
check that they fit. -/
inductive AsmLine where
  | clear (nobuf : Bool)
  | setcolor (nobuf : Bool) (r g b pos : Nat)
  | setrange (nobuf : Bool) (r g b start stop : Nat)
  | transmit (nobuf : Bool)
  /-- `.word 0x<16 hex digits>`: sends the word as given. -/
  | word (w : CmdWord)
  /-- pseudo `LEDOFF pos` (R78). -/
  | ledoff (pos : Nat)
  /-- pseudo `SHOW` (R78). -/
  | showFrame
  /-- pseudo `BLACKOUT` (R78). -/
  | blackout
  /-- a line with nothing but white space or a comment. -/
  | blank
  deriving DecidableEq, Repr

/-- `r`, `g` and `b` are in 0..255 (R77). -/
def coloursFit (r g b : Nat) : Bool := decide (r < 256) && decide (g < 256) && decide (b < 256)

/-- Expand a pseudo-instruction (R78); every other line is its own expansion. -/
def AsmLine.expand : AsmLine → List AsmLine
  | .ledoff pos => [.setcolor false 0 0 0 pos]
  | .showFrame => [.transmit false]
  | .blackout => [.clear false, .transmit false]
  | .blank => []
  | l => [l]

/-- The word of one line that is no pseudo-instruction: refused where an operand does not fit its field (R77); positions are
not checked against `N`. A pseudo-instruction has no word of its own. -/
def AsmLine.word? : AsmLine → Option CmdWord
  | .clear nobuf => some (encode (.clear (!nobuf)))
  | .setcolor nobuf r g b pos =>
    let i := Instr.setcolor (!nobuf) (BitVec.ofNat 8 r) (BitVec.ofNat 8 g) (BitVec.ofNat 8 b) pos
    if coloursFit r g b && i.wf then some (encode i) else none
  | .setrange nobuf r g b start stop =>
    let i := Instr.setrange (!nobuf) (BitVec.ofNat 8 r) (BitVec.ofNat 8 g) (BitVec.ofNat 8 b) start stop
    if coloursFit r g b && i.wf then some (encode i) else none
  | .transmit nobuf => some (encode (.transmit (!nobuf)))
  | .word w => some w
  | .ledoff _ | .showFrame | .blackout | .blank => none

/-- The words of a line (R77, R78), or none where the assembler refuses it. -/
def assembleLine (l : AsmLine) : Option (List CmdWord) := l.expand.mapM AsmLine.word?

/-! ## Reading the text -/

/-- White space inside a line. -/
def isBlankChar (c : Char) : Bool := c == ' ' || c == '\t' || c == '\r'

/-- A line without the white space at its ends. -/
def trimBlanks (cs : List Char) : List Char := ((cs.dropWhile isBlankChar).reverse.dropWhile isBlankChar).reverse

/-- The pieces of a text between occurrences of `sep`. -/
def splitAtChar (sep : Char) : List Char → List (List Char)
  | [] => [[]]
  | c :: cs =>
    if c = sep then [] :: splitAtChar sep cs
    else
      match splitAtChar sep cs with
      | [] => [[c]]
      | piece :: pieces => (c :: piece) :: pieces

/-- The value of a digit, decimal or hexadecimal of either case. -/
def digitValue (c : Char) : Option Nat :=
  let v := c.toNat
  if 48 ≤ v ∧ v ≤ 57 then some (v - 48)
  else if 97 ≤ v ∧ v ≤ 102 then some (v - 87)
  else if 65 ≤ v ∧ v ≤ 70 then some (v - 55)
  else none

/-- Read digits of a base onto the value read so far. -/
def readDigits (base : Nat) : Nat → List Char → Option Nat
  | acc, [] => some acc
  | acc, c :: cs =>
    match digitValue c with
    | some d => if d < base then readDigits base (base * acc + d) cs else none
    | none => none

/-- A number: `0x` and hexadecimal digits, or decimal digits (R77). -/
def readNumber : List Char → Option Nat
  | [] => none
  | '0' :: 'x' :: ds => if ds.isEmpty then none else readDigits 16 0 ds
  | ds => readDigits 10 0 ds

/-- The operand of `.word`: `0x` and exactly 16 hexadecimal digits (R77). -/
def readWord : List Char → Option CmdWord
  | '0' :: 'x' :: ds => if ds.length = 16 then (readDigits 16 0 ds).map (BitVec.ofNat 64) else none
  | _ => none

/-- The operands of a line, between commas. -/
def readOperands (cs : List Char) : Option (List Nat) :=
  if (trimBlanks cs).isEmpty then some []
  else (splitAtChar ',' cs).mapM (fun piece => readNumber (trimBlanks piece))

/-- `.nobuf` -/
def nobufSuffix : List Char := ['.', 'n', 'o', 'b', 'u', 'f']

/-- Take the suffix `.nobuf` off a name: the bare name, and whether the suffix was there. -/
def splitNobuf (name : List Char) : List Char × Bool :=
  if nobufSuffix.isSuffixOf name then (name.take (name.length - nobufSuffix.length), true) else (name, false)

/-- The line of a name and its operands; none where no line has that form. -/
def lineOf (name : List Char) (operands : List Nat) : Option AsmLine :=
  let bare := (splitNobuf name).1
  let nobuf := (splitNobuf name).2
  if bare = ['C', 'L', 'E', 'A', 'R'] then
    match operands with
    | [] => some (.clear nobuf)
    | _ => none
  else if bare = ['S', 'E', 'T', 'C', 'O', 'L', 'O', 'R'] then
    match operands with
    | [r, g, b, pos] => some (.setcolor nobuf r g b pos)
    | _ => none
  else if bare = ['S', 'E', 'T', 'R', 'A', 'N', 'G', 'E'] then
    match operands with
    | [r, g, b, start, stop] => some (.setrange nobuf r g b start stop)
    | _ => none
  else if bare = ['T', 'R', 'A', 'N', 'S', 'M', 'I', 'T'] then
    match operands with
    | [] => some (.transmit nobuf)
    | _ => none
  else if nobuf then none
  else if bare = ['L', 'E', 'D', 'O', 'F', 'F'] then
    match operands with
    | [pos] => some (.ledoff pos)
    | _ => none
  else if bare = ['S', 'H', 'O', 'W'] then
    match operands with
    | [] => some .showFrame
    | _ => none
  else if bare = ['B', 'L', 'A', 'C', 'K', 'O', 'U', 'T'] then
    match operands with
    | [] => some .blackout
    | _ => none
  else none

/-- Read one line of text; what follows `;` is a comment (R77). -/
def readLine (text : List Char) : Option AsmLine :=
  let body := trimBlanks (text.takeWhile (fun c => !(c == ';')))
  let name := body.takeWhile (fun c => !isBlankChar c)
  let rest := trimBlanks (body.dropWhile (fun c => !isBlankChar c))
  if name.isEmpty then some .blank
  else if name = ['.', 'w', 'o', 'r', 'd'] then (readWord rest).map AsmLine.word
  else (readOperands rest).bind (lineOf name)

/-- The words of a listing, one command per line (R77); none where the assembler refuses a line. -/
def assemble (text : List Char) : Option (List CmdWord) :=
  ((splitAtChar '\n' text).mapM (fun l => (readLine l).bind assembleLine)).map List.flatten

end Sys2Proof.Machine
end

