-- ==== Sys2Proof/Safety.lean ====
section
/-! DEFINITION. The terms the statements are made of: the invariant of a run, runs of many cycles, which command a cycle
takes, and the waveform of a frame as the spec writes it (41_encoder.md R137), independent of the step. -/

namespace Sys2Proof.Machine

/-! ## The invariant -/

/-- The bit of the buffer the sequencer stands at, `BUF[BYTE_IDX][BIT_IDX]`. -/
def currentBit (s : State) : Bool := (s.buf.readByte s.byteIdx.toNat).getLsbD s.bitIdx.toNat

/-- What holds of the sequencer's position in each phase (10_state.md R26). -/
def PositionOk (s : State) : Prop :=
  match s.phase with
  | .idle => True
  | .emitHigh =>
    s.byteIdx.toNat < s.cfg.nbytes ∧ s.cur = currentBit s ∧ s.cnt.toNat < s.cfg.highCyc s.cur
  | .emitLow =>
    s.byteIdx.toNat < s.cfg.nbytes ∧ s.cur = currentBit s ∧ s.cnt.toNat < s.cfg.lowCyc s.cur
  | .resetGap => s.cnt.toNat < s.cfg.resetCyc

/-- The invariant of every run of a block: its configuration is legal (00_scope.md R6), the buffer is in canonical form and
inside the address space (20_memory.md R50), and the sequencer's position is as R26 says. -/
structure Inv (s : State) : Prop where
  legal : s.cfg.Legal
  bufWf : s.buf.wf
  bufWithin : Memory.within s.cfg.nbytes s.buf
  position : PositionOk s

/-! ## Cycles and commands -/

/-- This cycle accepts a command, and its word decodes to `i` (10_state.md R28, 30_encoding.md R74). -/
def Takes (s : State) (i : Instr) : Prop := accepted s = true ∧ decode s.input.cmdWord = .command i

/-- `RST = 0` in this cycle and the `k` after it. -/
def NoResetThrough (s : State) (k : Nat) : Prop := ∀ j, j ≤ k → (s.inputAt j).rst = false

/-- `k` cycles of the block. -/
def runCycles : Nat → State → StepOutcome
  | 0, s => .next s
  | k + 1, s =>
    match step s with
    | .next t => runCycles k t
    | .fault f => .fault f
    | .refused r => .refused r

/-- The state `k` cycles after `s` is `t`. -/
def After (k : Nat) (s t : State) : Prop := runCycles k s = .next t

/-- `DOUT` in the `k` cycles after this one, first to last. -/
def doutTrace : Nat → State → Option (List Bool)
  | 0, _ => some []
  | k + 1, s =>
    match step s with
    | .next t => (doutTrace k t).map (fun line => dout t :: line)
    | .fault _ => none
    | .refused _ => none

/-- The command writes buffer bytes: CLEAR, SETCOLOR or SETRANGE (20_memory.md R52). -/
def isBufferCommand : Instr → Bool
  | .clear _ => true
  | .setcolor _ _ _ _ _ => true
  | .setrange _ _ _ _ _ _ => true
  | .transmit _ => false

/-- The outcome a decoded word is reported with on a block of configuration `c`: the table of 60_exceptions.md R171. -/
def commandResult (c : Config) : Decoded → ResultCode
  | .reserved _ => .invalidCmd
  | .command (.clear p) => if p = true then .ok else .invalidArg
  | .command (.setcolor p _ _ _ pos) => if p = true ∧ pos < c.n then .ok else .invalidArg
  | .command (.setrange p _ _ _ a e) => if p = true ∧ a < c.n ∧ e < c.n ∧ a ≠ e then .ok else .invalidArg
  | .command (.transmit p) => if p = true then .ok else .invalidArg

/-- The effects, one after another, of `SETCOLOR r, g, b, lo` … `SETCOLOR r, g, b, lo+k−1` (40_buffer_commands.md R106). -/
def setcolorRun (r g b : Byte) (lo : Nat) : Nat → State → StepOutcome
  | 0, s => .next s
  | k + 1, s =>
    match setcolorRun r g b lo k s with
    | .next t => exec (.setcolor true r g b (lo + k)) t
    | .fault f => .fault f
    | .refused x => .refused x

/-! ## The waveform of a frame (41_encoder.md R137) -/

/-- Bit `n` of a frame that sends the contents `m`: `β[n div 8][7 − (n mod 8)]`. -/
def frameBit (m : Memory) (n : Nat) : Bool := (m.readByte (n / 8)).getLsbD (7 - n % 8)

/-- The line for one bit: `1^{H(b)} 0^{L(b)}`. -/
def bitShape (c : Config) (b : Bool) : List Bool :=
  List.replicate (c.highCyc b) true ++ List.replicate (c.lowCyc b) false

/-- `W(β)`: the line for a whole frame, every bit and then the reset gap. -/
def waveform (c : Config) (m : Memory) : List Bool :=
  (List.range c.nbits).flatMap (fun n => bitShape c (frameBit m n)) ++ List.replicate c.resetCyc false

end Sys2Proof.Machine
end

