-- ==== Sys2Proof/Certificates/Slice0/Obligations.lean ====
section
/-! DEFINITION. The statements for the provers, in the order of spec/: encoding, commands, encoder, machine, ports, reset,
assembler. A statement about every state is a statement about every configuration, every buffer contents and every behaviour
of the host. -/

open Sys2Proof Sys2Proof.Machine

/-! ## Encoding (30_encoding.md) -/

/-- Decoding the word of a well-formed command gives the command back, every operand at every value its field admits. -/
def Obligations.DecodeOfEncodeIsTheCommand : Prop :=
  ∀ i : Instr, i.wf = true → decode (encode i) = .command i

/-- R73: the fields a command reads are carried by its operands, `RSV` is 0, and a word that differs only in ignored fields
is the same command. -/
def Obligations.IgnoredFieldsDoNotMatter : Prop :=
  ∀ (w : CmdWord) (i : Instr), decode w = .command i →
    fieldRsv w = 0 ∧ i.wf = true ∧ encode i = w &&& i.readMask ∧
    ∀ w' : CmdWord, w' &&& i.readMask = w &&& i.readMask → decode w' = .command i

/-- R74: what every word decodes to; a reserved word is rejected with `INVALID_CMD`; a word matches a row of the opcode table
exactly when it decodes to that row's command. -/
def Obligations.DecodeFollowsTheOpcodeMap : Prop :=
  ∀ (w : CmdWord) (s : State),
    (fieldRsv w ≠ 0 → decode w = .reserved (.reservedBits (fieldRsv w))) ∧
    (fieldRsv w = 0 → fieldOp w = 1 → decode w = .command (.clear (fieldP w))) ∧
    (fieldRsv w = 0 → fieldOp w = 2 →
      decode w = .command (.setcolor (fieldP w) (fieldRv w) (fieldGv w) (fieldBv w) (fieldA w))) ∧
    (fieldRsv w = 0 → fieldOp w = 3 →
      decode w = .command (.setrange (fieldP w) (fieldRv w) (fieldGv w) (fieldBv w) (fieldA w) (fieldE w))) ∧
    (fieldRsv w = 0 → fieldOp w = 4 → decode w = .command (.transmit (fieldP w))) ∧
    (fieldRsv w = 0 → fieldOp w ≠ 1 → fieldOp w ≠ 2 → fieldOp w ≠ 3 → fieldOp w ≠ 4 →
      decode w = .reserved (.reservedOpcode (fieldOp w))) ∧
    (∀ why, decode w = .reserved why → executeWord w s = .next { s with result := .invalidCmd }) ∧
    (∀ row ∈ opcodeTable, row.matches w = true ↔ ∃ i, decode w = .command i ∧ i.mnemonic = row.mnemonic)

/-- R79: the word of each command as a number, its ignored fields and `RSV` 0; without the buffer bit the top byte is 0x10,
0x20, 0x30 or 0x40. -/
def Obligations.WordsOfTheCommands : Prop :=
  ∀ (p : Bool) (r g b : Byte) (pos a e : Nat), pos < 65536 → a < 65536 → e < 65536 →
    (encode (.clear p)).toNat = (if p then 0x18 else 0x10) * 2 ^ 56 ∧
    (encode (.setcolor p r g b pos)).toNat =
      (if p then 0x28 else 0x20) * 2 ^ 56 + r.toNat * 2 ^ 48 + g.toNat * 2 ^ 40 + b.toNat * 2 ^ 32 + pos * 2 ^ 16 ∧
    (encode (.setrange p r g b a e)).toNat =
      (if p then 0x38 else 0x30) * 2 ^ 56 + r.toNat * 2 ^ 48 + g.toNat * 2 ^ 40 + b.toNat * 2 ^ 32 + a * 2 ^ 16 + e ∧
    (encode (.transmit p)).toNat = (if p then 0x48 else 0x40) * 2 ^ 56 ∧
    encode (.setrange true 10 20 30 5 2) = 0x380A141E00050002

/-- A few words of the spec's own tables (95_test_vectors.md 2.1, 2.3, 2.4) decode to what the tables say. -/
def Obligations.SampleWordsDecode : Prop :=
  decode 0x0000000000000000 = .reserved (.reservedOpcode 0) ∧
  decode 0x1000000000000000 = .command (.clear false) ∧
  decode 0x1900000000000000 = .reserved (.reservedBits 1) ∧
  decode 0x280102030000BEEF = .command (.setcolor true 1 2 3 0) ∧
  decode 0x380A141E00050002 = .command (.setrange true 10 20 30 5 2) ∧
  decode 0x48FFFFFFFFFFFFFF = .command (.transmit true)

/-! ## The cycle of a command (40_buffer_commands.md R100, 60_exceptions.md) -/

/-- The cycle that accepts a command runs exactly it: `step` is `exec` of the decoded command, on the state whose inputs have
moved to the next cycle; an accepted reserved word is rejected; an idle cycle in which no command is presented changes no
register. A word presented by `withFetchWord` is the one accepted (the model's choice, log 5). -/
def Obligations.StepRunsTheAcceptedCommand : Prop :=
  (∀ (s : State) (i : Instr), s.cfg.Legal → Takes s i → step s = exec i s.nextCycle) ∧
  (∀ (s : State) (why : ReservedWhy), s.cfg.Legal → accepted s = true → decode s.input.cmdWord = .reserved why →
    step s = .next { s.nextCycle with result := .invalidCmd }) ∧
  (∀ s : State, s.cfg.Legal → s.phase = .idle → s.input.rst = false → s.input.cmdValid = false →
    step s = .next s.nextCycle) ∧
  (∀ (s : State) (w : CmdWord) (i : Instr), decode w = .command i → Takes (s.withFetchWord 64 w.toNat) i)

/-- R171, R173: every cause of a rejection with its code, and their precedence; a command with no cause is performed. -/
def Obligations.CausesOfRejection : Prop :=
  ∀ s : State, s.cfg.Legal →
    (s.input.rst = true → accepted s = false ∧ step s = .next (blockReset s.nextCycle)) ∧
    (accepted s = true →
      (fieldRsv s.input.cmdWord ≠ 0 → step s = .next { s.nextCycle with result := .invalidCmd }) ∧
      (fieldOp s.input.cmdWord ∉ [(1 : BitVec 4), 2, 3, 4] →
        step s = .next { s.nextCycle with result := .invalidCmd }) ∧
      (∀ i, decode s.input.cmdWord = .command i →
        (i = .clear false → step s = .next { s.nextCycle with result := .invalidArg }) ∧
        (i = .transmit false → step s = .next { s.nextCycle with result := .invalidArg }) ∧
        (∀ p r g b pos, i = .setcolor p r g b pos → p = false ∨ s.cfg.n ≤ pos →
          step s = .next { s.nextCycle with result := .invalidArg }) ∧
        (∀ p r g b a e, i = .setrange p r g b a e → p = false ∨ s.cfg.n ≤ a ∨ s.cfg.n ≤ e ∨ a = e →
          step s = .next { s.nextCycle with result := .invalidArg }) ∧
        (commandResult s.cfg (.command i) = .ok → ∃ t, step s = .next t ∧ t.result = .ok)))

/-- R172: a rejected command writes only `RESULT`; the block stays idle with the line low and takes the next command as if
the rejected one had not been presented. -/
def Obligations.RejectionWritesOnlyTheResult : Prop :=
  ∀ s : State, s.cfg.Legal → accepted s = true → commandResult s.cfg (decode s.input.cmdWord) ≠ .ok →
    ∃ t, step s = .next t ∧
      t = { s.nextCycle with result := commandResult s.cfg (decode s.input.cmdWord) } ∧
      t.phase = .idle ∧ dout t = false ∧ ((s.inputAt 1).rst = false → cmdReady t = true) ∧
      ∀ i, exec i t = exec i s.nextCycle

/-! ## Buffer commands (40_buffer_commands.md) -/

/-- R101: CLEAR sets every buffer byte to 0 and changes nothing else but `RESULT`; without the buffer bit it is rejected. -/
def Obligations.ClearZeroesTheBuffer : Prop :=
  encode (.clear true) = 0x1800000000000000 ∧
  ∀ s : State, s.buf.wf →
    (∃ m : Memory, exec (.clear true) s = .next { s with buf := m, result := .ok } ∧
      (∀ a, a < s.cfg.nbytes → m.readByte a = 0x00) ∧
      (∀ a, s.cfg.nbytes ≤ a → m.readByte a = s.buf.readByte a)) ∧
    exec (.clear false) s = .next { s with result := .invalidArg }

/-- R102: after an accepted CLEAR every address reads 0x00, until a buffer command is performed. -/
def Obligations.AfterClearEveryAddressReadsZero : Prop :=
  ∀ s : State, s.cfg.Legal → s.buf.wf → Takes s (.clear true) →
    ∃ t, step s = .next t ∧ (∀ addr, readPort t addr = 0x00) ∧
      ∀ k u, After k t u →
        (∀ j v i, j < k → After j t v → Takes v i → isBufferCommand i = true →
          commandResult v.cfg (.command i) ≠ .ok) →
        ∀ addr, readPort u addr = 0x00

/-- R103, R104: SETCOLOR writes one LED's triplet in the order G, R, B and changes nothing else but `RESULT`; a position out
of range or an absent buffer reference leaves the whole buffer unchanged. -/
def Obligations.SetcolorWritesOneTriplet : Prop :=
  ∀ (s : State) (r g b : Byte) (p : Nat), s.buf.wf →
    (encode (.setcolor true r g b p)).extractLsb' 56 8 = 0x28 ∧
    (p < s.cfg.n → ∃ m : Memory, exec (.setcolor true r g b p) s = .next { s with buf := m, result := .ok } ∧
      m.readByte (3 * p) = g ∧ m.readByte (3 * p + 1) = r ∧ m.readByte (3 * p + 2) = b ∧
      ∀ a, a ≠ 3 * p → a ≠ 3 * p + 1 → a ≠ 3 * p + 2 → m.readByte a = s.buf.readByte a) ∧
    (s.cfg.n ≤ p → exec (.setcolor true r g b p) s = .next { s with result := .invalidArg }) ∧
    exec (.setcolor false r g b p) s = .next { s with result := .invalidArg }

/-- R105: SETRANGE writes one colour at every position of the half-open span from the smaller bound, and changes nothing
else but `RESULT`; its rejections leave the buffer unchanged. -/
def Obligations.SetrangeWritesTheHalfOpenSpan : Prop :=
  ∀ (s : State) (r g b : Byte) (start stop : Nat), s.buf.wf →
    (encode (.setrange true r g b start stop)).extractLsb' 56 8 = 0x38 ∧
    (start < s.cfg.n → stop < s.cfg.n → start ≠ stop →
      ∃ m : Memory, exec (.setrange true r g b start stop) s = .next { s with buf := m, result := .ok } ∧
        (∀ p, min start stop ≤ p → p < max start stop →
          m.readByte (3 * p) = g ∧ m.readByte (3 * p + 1) = r ∧ m.readByte (3 * p + 2) = b) ∧
        (∀ a, a < 3 * min start stop ∨ 3 * max start stop ≤ a → m.readByte a = s.buf.readByte a)) ∧
    (s.cfg.n ≤ start ∨ s.cfg.n ≤ stop ∨ start = stop →
      exec (.setrange true r g b start stop) s = .next { s with result := .invalidArg }) ∧
    exec (.setrange false r g b start stop) s = .next { s with result := .invalidArg }

/-- R106: a performed SETRANGE leaves what the SETCOLORs at each position of its span leave. -/
def Obligations.SetrangeEqualsItsSetcolors : Prop :=
  ∀ (s : State) (r g b : Byte) (a e : Nat), a < s.cfg.n → e < s.cfg.n → a ≠ e →
    exec (.setrange true r g b a e) s = setcolorRun r g b (min a e) (max a e - min a e) s ∧
    ∃ t, exec (.setrange true r g b a e) s = .next t ∧ t.result = .ok

/-- R107: no SETRANGE writes LED `N−1`; with `N = 1` every SETRANGE is rejected; SETRANGE over `0 .. N−1` and SETCOLOR at
`N−1` together fill the buffer. -/
def Obligations.SetrangeNeverWritesTheLastLed : Prop :=
  ∀ (s : State) (r g b : Byte), s.buf.wf →
    (∀ (p : Bool) (a e : Nat), ∃ t, exec (.setrange p r g b a e) s = .next t ∧
      ∀ x, 3 * (s.cfg.n - 1) ≤ x → t.buf.readByte x = s.buf.readByte x) ∧
    (s.cfg.n = 1 → ∀ (p : Bool) (a e : Nat),
      exec (.setrange p r g b a e) s = .next { s with result := .invalidArg }) ∧
    (2 ≤ s.cfg.n → ∃ t u, exec (.setrange true r g b 0 (s.cfg.n - 1)) s = .next t ∧
      exec (.setcolor true r g b (s.cfg.n - 1)) t = .next u ∧
      ∀ p, p < s.cfg.n →
        u.buf.readByte (3 * p) = g ∧ u.buf.readByte (3 * p + 1) = r ∧ u.buf.readByte (3 * p + 2) = b)

/-- R108: the order of SETRANGE's bounds does not matter; equal bounds or a bound out of range leave the buffer unchanged. -/
def Obligations.SetrangeIsOrderIndependent : Prop :=
  ∀ (s : State) (r g b : Byte) (x y : Nat),
    (x ≠ y → x < s.cfg.n → y < s.cfg.n →
      exec (.setrange true r g b x y) s = exec (.setrange true r g b y x) s) ∧
    (x = y ∨ s.cfg.n ≤ x ∨ s.cfg.n ≤ y → ∃ t, exec (.setrange true r g b x y) s = .next t ∧ t.buf = s.buf)

/-- R109: no buffer command, accepted or rejected, writes the sequencer's registers, so `DOUT`, `BUSY` and `CMD_READY` stay;
every buffer command completes on every state and operands. -/
def Obligations.BufferCommandsKeepTheSequencer : Prop :=
  ∀ (s : State) (i : Instr), isBufferCommand i = true →
    ∃ t, exec i s = .next t ∧ t.phase = s.phase ∧ t.byteIdx = s.byteIdx ∧ t.bitIdx = s.bitIdx ∧ t.cur = s.cur ∧
      t.cnt = s.cnt ∧ t.cfg = s.cfg ∧ t.inputs = s.inputs ∧ dout t = dout s ∧ busy t = busy s ∧ cmdReady t = cmdReady s

/-! ## The encoder (41_encoder.md) -/

/-- R130: TRANSMIT enters EMIT_HIGH for bit 7 of byte 0 and changes nothing else but `RESULT`; without the buffer bit it is
rejected and no frame starts. -/
def Obligations.TransmitStartsAFrame : Prop :=
  encode (.transmit true) = 0x4800000000000000 ∧
  ∀ s : State, s.cfg.Legal →
    (∃ t, exec (.transmit true) s = .next t ∧
      t = { s with byteIdx := 0, bitIdx := 7, cur := (s.buf.readByte 0).getLsbD 7, cnt := t.cnt, phase := .emitHigh,
                   result := .ok } ∧
      t.cnt.toNat = s.cfg.highCyc ((s.buf.readByte 0).getLsbD 7) - 1) ∧
    exec (.transmit false) s = .next { s with result := .invalidArg }

/-- R132: one cycle of EMIT_HIGH, and its length: entered with `CNT = H(CUR) − 1` it lasts exactly `H(CUR)` cycles, and
`CUR`, `BYTE_IDX`, `BIT_IDX` do not change. -/
def Obligations.EmitHighLastsItsHighTime : Prop :=
  ∀ s : State, s.cfg.Legal → s.phase = .emitHigh →
    (s.input.rst = false →
      (0 < s.cnt.toNat → step s = .next { s.nextCycle with cnt := s.cnt - 1 }) ∧
      (s.cnt.toNat = 0 → step s =
        .next { s.nextCycle with phase := .emitLow, cnt := BitVec.ofNat 32 (s.cfg.lowCyc s.cur - 1) })) ∧
    (s.cnt.toNat = s.cfg.highCyc s.cur - 1 → NoResetThrough s (s.cfg.highCyc s.cur - 1) →
      (∀ j, j < s.cfg.highCyc s.cur → ∃ t, After j s t ∧ t.phase = .emitHigh ∧ dout t = true ∧ t.cur = s.cur ∧
        t.byteIdx = s.byteIdx ∧ t.bitIdx = s.bitIdx) ∧
      ∃ t, After (s.cfg.highCyc s.cur) s t ∧ t.phase = .emitLow ∧ t.cnt.toNat = s.cfg.lowCyc s.cur - 1 ∧
        t.cur = s.cur ∧ t.byteIdx = s.byteIdx ∧ t.bitIdx = s.bitIdx)

/-- R133: one cycle of EMIT_LOW, and its length: entered with `CNT = L(CUR) − 1` it lasts exactly `L(CUR)` cycles, and then
the next bit's EMIT_HIGH or the reset gap begins. -/
def Obligations.EmitLowLastsItsLowTime : Prop :=
  ∀ s : State, s.cfg.Legal → s.phase = .emitLow → s.byteIdx.toNat < s.cfg.nbytes →
    (s.input.rst = false →
      (0 < s.cnt.toNat → step s = .next { s.nextCycle with cnt := s.cnt - 1 }) ∧
      (s.cnt.toNat = 0 → lastBit s.cfg s.byteIdx.toNat s.bitIdx.toNat = true → step s =
        .next { s.nextCycle with phase := .resetGap, cnt := BitVec.ofNat 32 (s.cfg.resetCyc - 1) }) ∧
      (s.cnt.toNat = 0 → lastBit s.cfg s.byteIdx.toNat s.bitIdx.toNat = false →
        ∀ nb nk, nextBit s.byteIdx.toNat s.bitIdx.toNat = (nb, nk) → step s =
          .next { s.nextCycle with
            byteIdx := BitVec.ofNat 16 nb
            bitIdx := BitVec.ofNat 3 nk
            cur := (s.buf.readByte nb).getLsbD nk
            cnt := BitVec.ofNat 32 (s.cfg.highCyc ((s.buf.readByte nb).getLsbD nk) - 1)
            phase := .emitHigh })) ∧
    (s.cnt.toNat = s.cfg.lowCyc s.cur - 1 → NoResetThrough s (s.cfg.lowCyc s.cur - 1) →
      (∀ j, j < s.cfg.lowCyc s.cur → ∃ t, After j s t ∧ t.phase = .emitLow ∧ dout t = false) ∧
      ∃ t, After (s.cfg.lowCyc s.cur) s t ∧
        (lastBit s.cfg s.byteIdx.toNat s.bitIdx.toNat = true →
          t.phase = .resetGap ∧ t.cnt.toNat = s.cfg.resetCyc - 1) ∧
        (lastBit s.cfg s.byteIdx.toNat s.bitIdx.toNat = false →
          t.phase = .emitHigh ∧ (t.byteIdx.toNat, t.bitIdx.toNat) = nextBit s.byteIdx.toNat s.bitIdx.toNat ∧
          t.cur = currentBit t ∧ t.cnt.toNat = s.cfg.highCyc t.cur - 1))

/-- R135: one cycle of RESET_GAP, and its length: entered with `CNT = RESET_CYC − 1` it lasts exactly `RESET_CYC` cycles with
the line low, `RESULT` is not written, and the block is idle after it. -/
def Obligations.ResetGapLastsResetCyc : Prop :=
  ∀ s : State, s.cfg.Legal → s.phase = .resetGap →
    (s.input.rst = false →
      (0 < s.cnt.toNat → step s = .next { s.nextCycle with cnt := s.cnt - 1 }) ∧
      (s.cnt.toNat = 0 → step s = .next { s.nextCycle with phase := .idle })) ∧
    (s.cnt.toNat = s.cfg.resetCyc - 1 → NoResetThrough s (s.cfg.resetCyc - 1) →
      (∀ j, j < s.cfg.resetCyc → ∃ t, After j s t ∧ t.phase = .resetGap ∧ dout t = false ∧ t.result = s.result) ∧
      ∃ t, After s.cfg.resetCyc s t ∧ t.phase = .idle ∧ t.result = s.result)

/-- R134, R136: the bit after the current one, MSB first and byte after byte; the last bit is bit 0 of byte `NBYTES−1`, the B
byte of LED `N−1`, and before it the next bit lies in the buffer. -/
def Obligations.BitOrderStaysInTheBuffer : Prop :=
  ∀ (c : Config) (b k : Nat),
    nextBit b k = (if k = 0 then (b + 1, 7) else (b, k - 1)) ∧
    (lastBit c b k = true ↔ b = c.nbytes - 1 ∧ k = 0) ∧
    (1 ≤ c.n → c.nbytes - 1 = 3 * (c.n - 1) + 2) ∧
    (b < c.nbytes → lastBit c b k = false → (nextBit b k).1 ≤ c.nbytes - 1)

/-- R139, R140: a bit takes exactly `TBIT` cycles, `H(CUR)` high and then `L(CUR)` low, whatever its value, its place and what
came before it; the next bit or the reset gap follows at once. -/
def Obligations.EveryBitTakesTBit : Prop :=
  ∀ s : State, s.cfg.Legal → s.phase = .emitHigh → s.byteIdx.toNat < s.cfg.nbytes →
    s.cnt.toNat = s.cfg.highCyc s.cur - 1 → NoResetThrough s (s.cfg.tbit - 1) →
    (∀ j, j < s.cfg.tbit → ∃ t, After j s t ∧ (dout t = true ↔ j < s.cfg.highCyc s.cur)) ∧
    s.cfg.highCyc s.cur + s.cfg.lowCyc s.cur = s.cfg.tbit ∧
    ∃ t, After s.cfg.tbit s t ∧
      (lastBit s.cfg s.byteIdx.toNat s.bitIdx.toNat = true →
        t.phase = .resetGap ∧ t.cnt.toNat = s.cfg.resetCyc - 1) ∧
      (lastBit s.cfg s.byteIdx.toNat s.bitIdx.toNat = false →
        t.phase = .emitHigh ∧ (t.byteIdx.toNat, t.bitIdx.toNat) = nextBit s.byteIdx.toNat s.bitIdx.toNat ∧
        t.cur = currentBit t ∧ t.cnt.toNat = s.cfg.highCyc t.cur - 1)

/-- R137: the exact waveform of a frame, bit by bit and as one string; whatever the host presents while it runs. -/
def Obligations.FrameWaveform : Prop :=
  ∀ s : State, s.cfg.Legal → Takes s (.transmit true) → NoResetThrough s s.cfg.frameCyc →
    (∀ n, n < s.cfg.nbits →
      (∀ k, n * s.cfg.tbit < k → k ≤ n * s.cfg.tbit + s.cfg.highCyc (frameBit s.buf n) →
        ∃ u, After k s u ∧ dout u = true) ∧
      (∀ k, n * s.cfg.tbit + s.cfg.highCyc (frameBit s.buf n) < k → k ≤ (n + 1) * s.cfg.tbit →
        ∃ u, After k s u ∧ dout u = false)) ∧
    (∀ k, s.cfg.nbits * s.cfg.tbit < k → k ≤ s.cfg.frameCyc →
      ∃ u, After k s u ∧ u.phase = .resetGap ∧ dout u = false) ∧
    (∃ u, After (s.cfg.frameCyc + 1) s u ∧ u.phase = .idle ∧ dout u = false) ∧
    doutTrace s.cfg.frameCyc s = some (waveform s.cfg s.buf)

/-- R138: a frame is busy for exactly `FRAME_CYC` cycles, and no command can be accepted before it ends. -/
def Obligations.FrameIsBusyForFrameCyc : Prop :=
  ∀ s : State, s.cfg.Legal → Takes s (.transmit true) → NoResetThrough s s.cfg.frameCyc →
    s.cfg.frameCyc = s.cfg.nbits * s.cfg.tbit + s.cfg.resetCyc ∧
    busy s = false ∧
    (∀ k, 1 ≤ k → k ≤ s.cfg.frameCyc → ∃ u, After k s u ∧ busy u = true ∧ cmdReady u = false ∧ accepted u = false) ∧
    ∃ u, After (s.cfg.frameCyc + 1) s u ∧ busy u = false ∧
      ((s.inputAt (s.cfg.frameCyc + 1)).rst = false → cmdReady u = true)

/-- R141: after the last high cycle of a frame the line is low for `L + RESET_CYC` cycles of the frame and at least one idle
cycle, and a TRANSMIT accepted in that cycle is high in the next. -/
def Obligations.LineIsLowBetweenFrames : Prop :=
  ∀ s : State, s.cfg.Legal → Takes s (.transmit true) → NoResetThrough s s.cfg.frameCyc →
    ∀ b lastHigh, b = frameBit s.buf (s.cfg.nbits - 1) →
      lastHigh = (s.cfg.nbits - 1) * s.cfg.tbit + s.cfg.highCyc b →
      (∃ u, After lastHigh s u ∧ dout u = true) ∧
      (∀ k, lastHigh < k → k ≤ s.cfg.frameCyc + 1 → ∃ u, After k s u ∧ dout u = false) ∧
      s.cfg.frameCyc - lastHigh = s.cfg.lowCyc b + s.cfg.resetCyc ∧
      (∀ u, After (s.cfg.frameCyc + 1) s u → Takes u (.transmit true) → ∃ v, step u = .next v ∧ dout v = true)

/-- R142: while a frame runs, the command port changes nothing, and the frame ends only by the last cycle of its reset gap or
by a block reset. -/
def Obligations.OnlyResetEndsAFrameEarly : Prop :=
  ∀ s : State, busy s = true →
    (∀ (valid : Bool) (w : CmdWord),
      step { s with inputs := { s.input with cmdValid := valid, cmdWord := w } :: s.inputs.tail } = step s) ∧
    (∀ t, step s = .next t → busy t = false → s.input.rst = true ∨ (s.phase = .resetGap ∧ s.cnt.toNat = 0)) ∧
    (s.cfg.Legal → s.input.rst = true → ∃ t, step s = .next t ∧ busy t = false)

/-- A command presented during a frame and held is accepted in the first cycle after it, and runs on the buffer as the frame
found it (70_reset_and_hazards.md "Command stall"; 95_test_vectors.md V-E4). -/
def Obligations.HeldCommandRunsAfterTheFrame : Prop :=
  ∀ (s : State) (w : CmdWord), s.cfg.Legal → Takes s (.transmit true) → NoResetThrough s (s.cfg.frameCyc + 1) →
    (s.inputAt (s.cfg.frameCyc + 1)).cmdValid = true → (s.inputAt (s.cfg.frameCyc + 1)).cmdWord = w →
    ∃ u, After (s.cfg.frameCyc + 1) s u ∧ accepted u = true ∧ u.buf = s.buf ∧ u.result = .ok ∧
      step u = executeWord w u.nextCycle

/-- R38: TRANSMIT loads the sequencer's registers from the configuration and the buffer alone, and two frames that send equal
buffers on blocks of one configuration have equal waveforms, whatever came before. -/
def Obligations.FramesAreIndependent : Prop :=
  ∀ s s' : State, s.cfg.Legal → s'.cfg = s.cfg → (∀ a, a < s.cfg.nbytes → s'.buf.readByte a = s.buf.readByte a) →
    Takes s (.transmit true) → Takes s' (.transmit true) →
    NoResetThrough s s.cfg.frameCyc → NoResetThrough s' s'.cfg.frameCyc →
    (∃ t t', step s = .next t ∧ step s' = .next t' ∧ t'.phase = t.phase ∧ t'.byteIdx = t.byteIdx ∧
      t'.bitIdx = t.bitIdx ∧ t'.cur = t.cur ∧ t'.cnt = t.cnt) ∧
    doutTrace s'.cfg.frameCyc s' = doutTrace s.cfg.frameCyc s ∧ (doutTrace s.cfg.frameCyc s).isSome = true

/-! ## Whole-machine rules (10_state.md, 20_memory.md) -/

/-- R62: the buffer does not change during a frame, so the frame sends the contents left before it; a reset that cuts the
frame short does not change the buffer either. -/
def Obligations.BufferIsFrozenDuringAFrame : Prop :=
  (∀ s : State, s.cfg.Legal → Takes s (.transmit true) → NoResetThrough s s.cfg.frameCyc →
    (∀ k, k ≤ s.cfg.frameCyc → ∃ u, After k s u ∧ u.buf = s.buf) ∧
      doutTrace s.cfg.frameCyc s = some (waveform s.cfg s.buf)) ∧
  (∀ s t : State, busy s = true → step s = .next t → t.buf = s.buf) ∧
  (∀ s : State, s.cfg.Legal → busy s = true → s.input.rst = true →
    ∃ t, step s = .next t ∧ t.buf = s.buf ∧ t.phase = .idle)

/-- Only a performed CLEAR, SETCOLOR or SETRANGE changes the buffer (20_memory.md "Address space": exactly these writes). -/
def Obligations.OnlyPerformedBufferCommandsWrite : Prop :=
  ∀ s t : State, step s = .next t → t.buf ≠ s.buf →
    ∃ i, Takes s i ∧ isBufferCommand i = true ∧ commandResult s.cfg (.command i) = .ok

/-- R31: `RESULT` is written only when a command is accepted, with the value the command's rule gives, or by block reset. -/
def Obligations.ResultIsWrittenOnAcceptance : Prop :=
  ∀ s t : State, step s = .next t →
    (accepted s = true → t.result = commandResult s.cfg (decode s.input.cmdWord)) ∧
    (s.input.rst = true → t.result = .ok) ∧
    (accepted s = false → s.input.rst = false → t.result = s.result)

/-- R28: when the block is ready, when a command is accepted, and that a command presented while it is not ready has no
effect. The read address has none in any cycle (20_memory.md "reads have no side effects"). -/
def Obligations.CommandsAreTakenOnlyWhenReady : Prop :=
  ∀ s : State,
    (cmdReady s = true ↔ s.phase = .idle ∧ s.input.rst = false) ∧
    (accepted s = true ↔ s.input.cmdValid = true ∧ cmdReady s = true) ∧
    (cmdReady s = false → accepted s = false ∧ ∀ (valid : Bool) (w : CmdWord),
      step { s with inputs := { s.input with cmdValid := valid, cmdWord := w } :: s.inputs.tail } = step s) ∧
    (∀ addr : BitVec 16, step { s with inputs := { s.input with rdAddr := addr } :: s.inputs.tail } = step s)

/-- Commands take effect one at a time, in the order they are accepted: a buffer command takes one cycle, and the command
accepted in the next cycle runs on what it left (20_memory.md "Ordering"; 70_reset_and_hazards.md "Hazards"). -/
def Obligations.CommandsTakeEffectInOrder : Prop :=
  ∀ (s : State) (i i' : Instr), s.cfg.Legal → Takes s i → isBufferCommand i = true →
    (s.inputAt 1).rst = false → (s.inputAt 1).cmdValid = true → decode (s.inputAt 1).cmdWord = .command i' →
    ∃ t u, exec i s.nextCycle = .next t ∧ Takes t i' ∧ exec i' t.nextCycle = .next u ∧ After 2 s u

/-- While the block is idle nothing reads the sequencer's position registers: changing them changes no output of the next
cycle, and a frame that starts is the same frame (10_state.md "Registers"; 93_implementation_defined.md I9). -/
def Obligations.IdlePositionIsNotRead : Prop :=
  ∀ (s : State) (byteIdx : BitVec 16) (bitIdx : BitVec 3) (cur : Bool) (cnt : BitVec 32),
    s.cfg.Legal → s.phase = .idle →
    ∃ t t', step s = .next t ∧
      step { s with byteIdx := byteIdx, bitIdx := bitIdx, cur := cur, cnt := cnt } = .next t' ∧
      t'.phase = t.phase ∧ t'.buf = t.buf ∧ t'.result = t.result ∧ t'.cfg = t.cfg ∧ t'.inputs = t.inputs ∧
      status t' = status t ∧ dout t' = dout t ∧ rdData t' = rdData t ∧ (busy t = true → t' = t)

/-- R34: no command, port or reset changes the parameters. -/
def Obligations.ParametersNeverChange : Prop :=
  (∀ (s t : State) (i : Instr), exec i s = .next t → t.cfg = s.cfg) ∧
  (∀ (s t : State) (k : Nat), After k s t → t.cfg = s.cfg)

/-- Every step keeps the invariant: a legal configuration, a canonical buffer inside the address space, and the sequencer's
position within the bounds of its phase (10_state.md "Registers"). The canonical form is the model's way of writing memory
(log 3). -/
def Obligations.StepKeepsTheInvariant : Prop :=
  ∀ s t : State, Inv s → step s = .next t → Inv t

/-- A state that meets the invariant never stops: every cycle, and every run of cycles, answers a next state. -/
def Obligations.NoRunStops : Prop :=
  ∀ s : State, Inv s → (∃ t, step s = .next t) ∧ ∀ k, ∃ t, After k s t ∧ Inv t

/-- The model's one fault (log 7): a bit of the buffer at an offset that does not exist. Only states outside the invariant
reach it. -/
def Obligations.BitOutsideTheBufferFaults : Prop :=
  (∀ s : State, s.cfg.n = 0 → exec (.transmit true) s = .fault .bufferOffsetOutOfRange) ∧
  (∀ s : State, s.cfg.Legal → s.input.rst = false → s.phase = .emitLow → s.cnt.toNat = 0 →
    lastBit s.cfg s.byteIdx.toNat s.bitIdx.toNat = false →
    s.cfg.nbytes ≤ (nextBit s.byteIdx.toNat s.bitIdx.toNat).1 → step s = .fault .bufferOffsetOutOfRange) ∧
  (∀ (s : State) (f : Fault), Inv s → step s ≠ .fault f)

/-- R6: what a legal configuration is, what follows from it, and that no other one has a machine. -/
def Obligations.IllegalConfigurationHasNoMachine : Prop :=
  ∀ c : Config,
    (c.Legal ↔
      (1 ≤ c.n ∧ c.n ≤ 21845) ∧
      (∀ x ∈ [c.t0hCyc, c.t0lCyc, c.t1hCyc, c.t1lCyc, c.resetCyc], 1 ≤ x ∧ x ≤ 2 ^ 32 - 1) ∧
      c.t0hCyc + c.t0lCyc = c.t1hCyc + c.t1lCyc ∧ c.t1hCyc > c.t0hCyc) ∧
    (c.Legal → c.t0lCyc > c.t1lCyc) ∧
    (¬ c.Legal → ∀ s : State, s.cfg = c → step s = .refused .illegalConfiguration) ∧
    (c.Legal → ∀ s : State, s.cfg = c → ∀ r, step s ≠ .refused r)

/-- R7, R35: the derived constants and the two pulse shapes, which total the same bit period. -/
def Obligations.PulseShapesTotalTheBitPeriod : Prop :=
  ∀ c : Config, c.Legal →
    c.nbytes = 3 * c.n ∧ c.nbits = 8 * c.nbytes ∧ c.nbits = 24 * c.n ∧
    c.tbit = c.t0hCyc + c.t0lCyc ∧ c.tbit = c.t1hCyc + c.t1lCyc ∧ c.frameCyc = c.nbits * c.tbit + c.resetCyc ∧
    c.highCyc true = c.t1hCyc ∧ c.highCyc false = c.t0hCyc ∧ c.lowCyc true = c.t1lCyc ∧ c.lowCyc false = c.t0lCyc ∧
    ∀ b, c.highCyc b + c.lowCyc b = c.tbit

/-! ## Ports (10_state.md) -/

/-- R27, R29, R30: the fields of `STATUS`; its top bits are 0, `BUSY` is `PHASE ≠ IDLE`, and `RESULT` is never 3. -/
def Obligations.StatusByteLayout : Prop :=
  ∀ s : State,
    (status s).extractLsb' 0 2 = s.result.code ∧ (status s).extractLsb' 2 1 = BitVec.ofBool (busy s) ∧
    (status s).extractLsb' 3 2 = s.phase.code ∧ (status s).extractLsb' 5 3 = 0 ∧
    (busy s = true ↔ s.phase ≠ .idle) ∧
    (s.result = .ok → s.result.code = 0) ∧ (s.result = .invalidArg → s.result.code = 1) ∧
    (s.result = .invalidCmd → s.result.code = 2) ∧ s.result.code ≠ 3

/-- R24, R32: the values of `PHASE`, and the line's level: high exactly in EMIT_HIGH, whatever the inputs are. -/
def Obligations.LineIsHighOnlyInEmitHigh : Prop :=
  Phase.idle.code = 0 ∧ Phase.emitHigh.code = 1 ∧ Phase.emitLow.code = 2 ∧ Phase.resetGap.code = 3 ∧
  ∀ (s : State) (ins : List PortInput), (dout s = true ↔ s.phase = .emitHigh) ∧ dout { s with inputs := ins } = dout s

/-- R33: the read port answers the byte at an address of the buffer and 0x00 elsewhere, in every phase and while `RST = 1`. -/
def Obligations.ReadPortAnswersTheByte : Prop :=
  ∀ (s : State) (addr : BitVec 16),
    (addr.toNat < s.cfg.nbytes → readPort s addr = s.buf.readByte addr.toNat) ∧
    (s.cfg.nbytes ≤ addr.toNat → readPort s addr = 0x00) ∧
    rdData s = readPort s s.input.rdAddr ∧
    ∀ (ph : Phase) (ins : List PortInput), readPort { s with phase := ph, inputs := ins } addr = readPort s addr

/-! ## Reset (70_reset_and_hazards.md) -/

/-- R190: block reset in any phase and whatever else the host presents: the registers' values, the buffer kept, no command
accepted, the line low and `STATUS` 0x00 in the next cycle, and the block ready then. -/
def Obligations.BlockResetSetsTheRegisters : Prop :=
  ∀ s : State, s.cfg.Legal → s.input.rst = true →
    cmdReady s = false ∧ accepted s = false ∧
    ∃ t, step s = .next t ∧
      t = { cfg := s.cfg, buf := s.buf, phase := .idle, byteIdx := 0, bitIdx := 0, cur := false, cnt := 0,
            result := .ok, inputs := s.inputs.tail } ∧
      dout t = false ∧ status t = 0x00 ∧ ((s.inputAt 1).rst = false → cmdReady t = true)

/-- R36: the values block reset sets, with the buffer unchanged; and the state after reset, with the buffer at its power-on
contents, for every configuration and contents. -/
def Obligations.StateAfterReset : Prop :=
  ∀ (c : Config) (bufInit : List Byte) (ins : List PortInput), bufInit.length = c.nbytes →
    ∀ s, s = State.resetOf c bufInit ins →
      s.phase = .idle ∧ s.byteIdx = 0 ∧ s.bitIdx = 0 ∧ s.cur = false ∧ s.cnt = 0 ∧ s.result = .ok ∧
      (∀ i, i < c.nbytes → some (s.buf.readByte i) = bufInit[i]?) ∧
      dout s = false ∧ busy s = false ∧ status s = 0x00 ∧ (s.input.rst = false → cmdReady s = true) ∧
      ∀ v : State, blockReset v =
        { v with phase := .idle, byteIdx := 0, bitIdx := 0, cur := false, cnt := 0, result := .ok }

/-- R192: a reset in a frame aborts it: idle with the line low from the next cycle and no gap of its own, the line stays low
until a TRANSMIT is performed, and one accepted at once sends the whole buffer again. -/
def Obligations.ResetAbortsTheFrame : Prop :=
  ∀ s : State, s.cfg.Legal → busy s = true → s.input.rst = true →
    ∃ t, step s = .next t ∧ t.phase = .idle ∧ dout t = false ∧ t.buf = s.buf ∧
      (∀ k u, After k t u → (∀ j v, j < k → After j t v → ¬ Takes v (.transmit true)) →
        u.phase = .idle ∧ dout u = false) ∧
      (Takes t (.transmit true) → NoResetThrough t t.cfg.frameCyc →
        doutTrace t.cfg.frameCyc t = some (waveform s.cfg s.buf))

/-- The invariant holds right after reset, for every legal configuration, every power-on contents and every host, and so at
`State.reset`, whose configuration, contents and host are the model's choice (logs 1, 3, 4). -/
def Obligations.ResetMeetsTheInvariant : Prop :=
  (∀ (c : Config) (bufInit : List Byte) (ins : List PortInput), c.Legal → Inv (State.resetOf c bufInit ins)) ∧
  Inv State.reset

/-- The timing table of 70_reset_and_hazards.md "Timing": each command's effects, whole, in the state of the next
cycle, and when the port is ready again. -/
def Obligations.CommandTiming : Prop :=
  ∀ s : State, s.cfg.Legal →
    (accepted s = true → decode s.input.cmdWord ≠ .command (.transmit true) →
      ∃ t, step s = .next t ∧ executeWord s.input.cmdWord s.nextCycle = .next t ∧
        t.phase = .idle ∧ dout t = false ∧ ((s.inputAt 1).rst = false → cmdReady t = true)) ∧
    (Takes s (.transmit true) → ∃ t, step s = .next t ∧ exec (.transmit true) s.nextCycle = .next t ∧
      dout t = true ∧ busy t = true) ∧
    (Takes s (.transmit true) → NoResetThrough s (s.cfg.frameCyc + 1) →
      (∀ k, 1 ≤ k → k ≤ s.cfg.frameCyc → ∃ u, After k s u ∧ cmdReady u = false) ∧
      ∃ u, After (s.cfg.frameCyc + 1) s u ∧ cmdReady u = true) ∧
    (s.input.rst = true → ∃ t, step s = .next t ∧ t = blockReset s.nextCycle ∧ dout t = false ∧ ((s.inputAt 1).rst = false → cmdReady t = true))

/-! ## The assembler (30_encoding.md) -/

/-- R78: the expansions of the pseudo-instructions, and how many words each has. -/
def Obligations.PseudoInstructionsExpand : Prop :=
  (∀ pos, assembleLine (.ledoff pos) = assembleLine (.setcolor false 0 0 0 pos)) ∧
  (∀ pos ws, assembleLine (.ledoff pos) = some ws → ws.length = 1) ∧
  assembleLine .showFrame = some [encode (.transmit true)] ∧
  assembleLine .blackout = some [encode (.clear true), encode (.transmit true)]

/-- The assembler refuses an operand that does not fit its field, and otherwise gives the encoded word of the line's command,
whose ignored fields and `RSV` are 0 and which decodes to that command (30_encoding.md "Assembler syntax"). -/
def Obligations.AssemblerChecksItsOperands : Prop :=
  ∀ (nobuf : Bool) (r g b pos a e : Nat) (w : CmdWord),
    (r < 256 → g < 256 → b < 256 → pos < 65536 →
      ∀ i, i = Instr.setcolor (!nobuf) (BitVec.ofNat 8 r) (BitVec.ofNat 8 g) (BitVec.ofNat 8 b) pos →
        assembleLine (.setcolor nobuf r g b pos) = some [encode i] ∧ decode (encode i) = .command i ∧
        fieldRsv (encode i) = 0 ∧ fieldE (encode i) = 0) ∧
    (256 ≤ r ∨ 256 ≤ g ∨ 256 ≤ b ∨ 65536 ≤ pos → assembleLine (.setcolor nobuf r g b pos) = none) ∧
    (r < 256 → g < 256 → b < 256 → a < 65536 → e < 65536 →
      ∀ i, i = Instr.setrange (!nobuf) (BitVec.ofNat 8 r) (BitVec.ofNat 8 g) (BitVec.ofNat 8 b) a e →
        assembleLine (.setrange nobuf r g b a e) = some [encode i] ∧ decode (encode i) = .command i ∧
        fieldRsv (encode i) = 0) ∧
    (256 ≤ r ∨ 256 ≤ g ∨ 256 ≤ b ∨ 65536 ≤ a ∨ 65536 ≤ e →
      assembleLine (.setrange nobuf r g b a e) = none) ∧
    (∀ i, i = Instr.clear (!nobuf) → assembleLine (.clear nobuf) = some [encode i] ∧
      decode (encode i) = .command i ∧ encode i &&& 0x07FFFFFFFFFFFFFF = 0) ∧
    (∀ i, i = Instr.transmit (!nobuf) → assembleLine (.transmit nobuf) = some [encode i] ∧
      decode (encode i) = .command i ∧ encode i &&& 0x07FFFFFFFFFFFFFF = 0) ∧
    assembleLine (.word w) = some [w]
end

