-- ==== Sys2Proof/Laws/Config.lean ====
section
/-! SUPPORT. What a legal configuration gives (00_scope.md R6, R7): the bounds that make every stored value fit. -/

namespace Sys2Proof

theorem Config.Legal.nbytes_pos {c : Config} (h : c.Legal) : 0 < c.nbytes := by
  have := h.1.1
  simp only [Config.nbytes]
  omega

/-- Every offset fits the 16-bit `BYTE_IDX` (10_state.md R23). -/
theorem Config.Legal.nbytes_lt {c : Config} (h : c.Legal) : c.nbytes < 2 ^ 16 := by
  have := h.1.2
  simp only [Config.nbytes, Config.maxLeds] at *
  omega

theorem Config.Legal.highCyc_pos {c : Config} (h : c.Legal) (b : Bool) : 0 < c.highCyc b := by
  obtain ⟨-, ⟨⟨h0, -⟩, -, ⟨h1, -⟩, -, -⟩, -⟩ := h
  cases b <;> simp only [Config.highCyc] <;> simp <;> omega

theorem Config.Legal.lowCyc_pos {c : Config} (h : c.Legal) (b : Bool) : 0 < c.lowCyc b := by
  obtain ⟨-, ⟨-, ⟨h0, -⟩, -, ⟨h1, -⟩, -⟩, -⟩ := h
  cases b <;> simp only [Config.lowCyc] <;> simp <;> omega

theorem Config.Legal.resetCyc_pos {c : Config} (h : c.Legal) : 0 < c.resetCyc := h.2.1.2.2.2.2.1

/-- Every value loaded into the 32-bit `CNT` fits (10_state.md R23). -/
theorem Config.Legal.highCyc_lt {c : Config} (h : c.Legal) (b : Bool) : c.highCyc b < 2 ^ 32 := by
  obtain ⟨-, ⟨⟨-, h0⟩, -, ⟨-, h1⟩, -, -⟩, -⟩ := h
  cases b <;> simp only [Config.highCyc, Config.maxCyc] at * <;> simp <;> omega

theorem Config.Legal.lowCyc_lt {c : Config} (h : c.Legal) (b : Bool) : c.lowCyc b < 2 ^ 32 := by
  obtain ⟨-, ⟨-, ⟨-, h0⟩, -, ⟨-, h1⟩, -⟩, -⟩ := h
  cases b <;> simp only [Config.lowCyc, Config.maxCyc] at * <;> simp <;> omega

theorem Config.Legal.resetCyc_lt {c : Config} (h : c.Legal) : c.resetCyc < 2 ^ 32 := by
  have := h.2.1.2.2.2.2.2
  simp only [Config.maxCyc] at this
  omega

/-- The toy configuration CT of 95_test_vectors.md is legal for every LED count in range. -/
theorem Config.toy_legal {n : Nat} (h1 : 1 ≤ n) (h2 : n ≤ Config.maxLeds) : (Config.toy n).Legal := by
  simp [Config.Legal, Config.toy, Config.maxCyc, h1, h2]

end Sys2Proof
end

