-- ==== Sys2Proof/Laws/Decode.lean ====
section
/-! SUPPORT. Each field of a packed word reads back as it was packed (30_encoding.md R70, R71). -/

namespace Sys2Proof

section
variable (op : BitVec 4) (p : Bool) (rv gv bv : Byte) (a e : Nat)

@[simp] theorem fieldOp_packWord : fieldOp (packWord op p rv gv bv a e) = op := by
  ext i hi
  simp only [fieldOp, packWord, BitVec.getElem_extractLsb', BitVec.getLsbD_append]
  rw [if_neg (by omega), if_neg (by omega), if_neg (by omega), if_neg (by omega), if_neg (by omega), if_neg (by omega),
    if_neg (by omega), BitVec.getLsbD_eq_getElem (by omega)]
  congr 1
  omega

@[simp] theorem fieldP_packWord : fieldP (packWord op p rv gv bv a e) = p := by
  simp only [fieldP, packWord, BitVec.getLsbD_append]
  rw [if_neg (by omega), if_neg (by omega), if_neg (by omega), if_neg (by omega), if_neg (by omega), if_neg (by omega),
    if_pos (by omega)]
  simp

@[simp] theorem fieldRsv_packWord : fieldRsv (packWord op p rv gv bv a e) = 0 := by
  ext i hi
  simp only [fieldRsv, packWord, BitVec.getElem_extractLsb', BitVec.getLsbD_append]
  rw [if_neg (by omega), if_neg (by omega), if_neg (by omega), if_neg (by omega), if_neg (by omega), if_pos (by omega)]
  simp

@[simp] theorem fieldRv_packWord : fieldRv (packWord op p rv gv bv a e) = rv := by
  ext i hi
  simp only [fieldRv, packWord, BitVec.getElem_extractLsb', BitVec.getLsbD_append]
  rw [if_neg (by omega), if_neg (by omega), if_neg (by omega), if_neg (by omega), if_pos (by omega),
    BitVec.getLsbD_eq_getElem (by omega)]
  congr 1
  omega

@[simp] theorem fieldGv_packWord : fieldGv (packWord op p rv gv bv a e) = gv := by
  ext i hi
  simp only [fieldGv, packWord, BitVec.getElem_extractLsb', BitVec.getLsbD_append]
  rw [if_neg (by omega), if_neg (by omega), if_neg (by omega), if_pos (by omega),
    BitVec.getLsbD_eq_getElem (by omega)]
  congr 1
  omega

@[simp] theorem fieldBv_packWord : fieldBv (packWord op p rv gv bv a e) = bv := by
  ext i hi
  simp only [fieldBv, packWord, BitVec.getElem_extractLsb', BitVec.getLsbD_append]
  rw [if_neg (by omega), if_neg (by omega), if_pos (by omega), BitVec.getLsbD_eq_getElem (by omega)]
  congr 1
  omega

theorem fieldA_packWord (ha : a < indexBound) : fieldA (packWord op p rv gv bv a e) = a := by
  have h : (packWord op p rv gv bv a e).extractLsb' 16 16 = BitVec.ofNat 16 a := by
    ext i hi
    simp only [packWord, BitVec.getElem_extractLsb', BitVec.getLsbD_append]
    rw [if_neg (by omega), if_pos (by omega), BitVec.getLsbD_eq_getElem (by omega)]
    congr 1
    omega
  rw [fieldA, h, BitVec.toNat_ofNat]
  exact Nat.mod_eq_of_lt ha

theorem fieldE_packWord (he : e < indexBound) : fieldE (packWord op p rv gv bv a e) = e := by
  have h : (packWord op p rv gv bv a e).extractLsb' 0 16 = BitVec.ofNat 16 e := by
    ext i hi
    simp only [packWord, BitVec.getElem_extractLsb', BitVec.getLsbD_append]
    rw [if_pos (by omega), BitVec.getLsbD_eq_getElem (by omega)]
    congr 1
    omega
  rw [fieldE, h, BitVec.toNat_ofNat]
  exact Nat.mod_eq_of_lt he

end

theorem fieldA_lt (w : CmdWord) : fieldA w < indexBound := (w.extractLsb' 16 16).isLt

theorem fieldE_lt (w : CmdWord) : fieldE w < indexBound := (w.extractLsb' 0 16).isLt

/-- Everything `decode` can answer with a command. -/
theorem decode_command_cases {w : CmdWord} {i : Instr} (h : decode w = .command i) :
    fieldRsv w = 0 ∧
      ((fieldOp w = 1 ∧ i = .clear (fieldP w)) ∨
       (fieldOp w = 2 ∧ i = .setcolor (fieldP w) (fieldRv w) (fieldGv w) (fieldBv w) (fieldA w)) ∨
       (fieldOp w = 3 ∧ i = .setrange (fieldP w) (fieldRv w) (fieldGv w) (fieldBv w) (fieldA w) (fieldE w)) ∨
       (fieldOp w = 4 ∧ i = .transmit (fieldP w))) := by
  unfold decode at h
  split_ifs at h with h0 h1 h2 h3 h4 <;> simp_all

end Sys2Proof
end

