-- ==== Sys2Proof/Laws/Memory.lean ====
section
/-! SUPPORT. The laws of the frame buffer: a read after a write, a write leaves every other offset alone, every operation
keeps the canonical form and the address space, and equal reads mean equal contents. -/

namespace Sys2Proof.Machine

@[simp] theorem Memory.readByte_nil (a : Nat) : Memory.readByte [] a = unlistedByte := rfl

theorem Memory.readByte_cons (b : Nat) (w : Byte) (m : Memory) (a : Nat) :
    Memory.readByte ((b, w) :: m) a = if a = b then w else m.readByte a := rfl

theorem unlistedByte_eq : unlistedByte = 0x00 := rfl

theorem Memory.wf_nil : Memory.wf [] := by simp [Memory.wf]

/-- The canonical form of a cell and a rest, taken apart. -/
theorem Memory.wf_cons {b : Nat} {w : Byte} {m : Memory} :
    Memory.wf ((b, w) :: m) ↔ (∀ c ∈ m, b < c.1) ∧ w ≠ unlistedByte ∧ Memory.wf m := by
  simp only [Memory.wf, List.pairwise_cons, List.forall_mem_cons]
  tauto

/-- An offset below every cell is unlisted. -/
theorem Memory.readByte_of_all_above {m : Memory} {a : Nat} (h : ∀ c ∈ m, a < c.1) :
    m.readByte a = unlistedByte := by
  induction m with
  | nil => rfl
  | cons c m ih =>
    obtain ⟨b, w⟩ := c
    have hb : a < b := h (b, w) (by simp)
    rw [Memory.readByte_cons, if_neg (by omega)]
    exact ih (fun c hc => h c (by simp [hc]))

/-- A write leaves every other offset alone. -/
theorem Memory.readByte_writeByte_ne (m : Memory) {a a' : Nat} (v : Byte) (h : a' ≠ a) :
    (m.writeByte a v).readByte a' = m.readByte a' := by
  induction m with
  | nil => by_cases hv : v = unlistedByte <;> simp [Memory.writeByte, hv, Memory.readByte_cons, h]
  | cons c m ih =>
    obtain ⟨b, w⟩ := c
    simp only [Memory.writeByte]
    split_ifs with h1 h2 h2 h3 <;> simp_all [Memory.readByte_cons]

/-- A read after a write to the same offset gives the value written. -/
theorem Memory.readByte_writeByte_same {m : Memory} (hm : m.wf) (a : Nat) (v : Byte) :
    (m.writeByte a v).readByte a = v := by
  induction m with
  | nil => by_cases hv : v = unlistedByte <;> simp [Memory.writeByte, hv, Memory.readByte_cons]
  | cons c m ih =>
    obtain ⟨b, w⟩ := c
    obtain ⟨hb, hw, hm'⟩ := Memory.wf_cons.mp hm
    simp only [Memory.writeByte]
    split_ifs with h1 h2 h2 h3
    · rw [Memory.readByte_cons, if_neg (by omega), h2]
      exact Memory.readByte_of_all_above (fun c hc => lt_trans h1 (hb c hc))
    · simp [Memory.readByte_cons]
    · subst h2
      rw [h3]
      exact Memory.readByte_of_all_above hb
    · simp [Memory.readByte_cons]
    · rw [Memory.readByte_cons, if_neg h2]
      exact ih hm'

/-- One write, at every offset. -/
theorem Memory.readByte_writeByte {m : Memory} (hm : m.wf) (a a' : Nat) (v : Byte) :
    (m.writeByte a v).readByte a' = if a' = a then v else m.readByte a' := by
  split_ifs with h
  · subst h; exact Memory.readByte_writeByte_same hm _ v
  · exact Memory.readByte_writeByte_ne m v h

/-- The cells after a write lie where cells lay before, or at the offset written. -/
theorem Memory.mem_writeByte {m : Memory} {a : Nat} {v : Byte} {c : Host.Cell} (h : c ∈ m.writeByte a v) :
    c ∈ m ∨ (c = (a, v) ∧ v ≠ unlistedByte) := by
  induction m with
  | nil => by_cases hv : v = unlistedByte <;> simp_all [Memory.writeByte]
  | cons d m ih =>
    obtain ⟨b, w⟩ := d
    simp only [Memory.writeByte] at h
    split_ifs at h with h1 h2 h2 h3
    all_goals simp only [List.mem_cons] at h ⊢
    all_goals tauto

/-- A write keeps the canonical form. -/
theorem Memory.writeByte_wf {m : Memory} (hm : m.wf) (a : Nat) (v : Byte) : (m.writeByte a v).wf := by
  induction m with
  | nil => by_cases hv : v = unlistedByte <;> simp [Memory.writeByte, hv, Memory.wf]
  | cons c m ih =>
    obtain ⟨b, w⟩ := c
    obtain ⟨hb, hw, hm'⟩ := Memory.wf_cons.mp hm
    simp only [Memory.writeByte]
    split_ifs with h1 h2 h2 h3
    · exact hm
    · refine Memory.wf_cons.mpr ⟨?_, h2, hm⟩
      simp only [List.forall_mem_cons]
      exact ⟨h1, fun c hc => lt_trans h1 (hb c hc)⟩
    · exact hm'
    · subst h2
      exact Memory.wf_cons.mpr ⟨hb, h3, hm'⟩
    · refine Memory.wf_cons.mpr ⟨fun c hc => ?_, hw, ih hm'⟩
      obtain hc | ⟨rfl, -⟩ := Memory.mem_writeByte hc
      · exact hb c hc
      · show b < a
        omega

/-- A write at an offset of the buffer keeps every cell in the buffer. -/
theorem Memory.writeByte_within {m : Memory} {nbytes a : Nat} (hm : Memory.within nbytes m) (ha : a < nbytes)
    (v : Byte) : Memory.within nbytes (m.writeByte a v) := by
  intro c hc
  obtain hc | ⟨rfl, -⟩ := Memory.mem_writeByte hc
  · exact hm c hc
  · exact ha

/-! ## Several bytes -/

theorem Memory.writeBytes_wf {m : Memory} (hm : m.wf) (a : Nat) (vs : List Byte) : (m.writeBytes a vs).wf := by
  induction vs generalizing m a with
  | nil => exact hm
  | cons v vs ih => exact ih (Memory.writeByte_wf hm a v) (a + 1)

theorem Memory.writeBytes_within {m : Memory} {nbytes a : Nat} {vs : List Byte} (hm : Memory.within nbytes m)
    (ha : a + vs.length ≤ nbytes) : Memory.within nbytes (m.writeBytes a vs) := by
  induction vs generalizing m a with
  | nil => exact hm
  | cons v vs ih =>
    simp only [List.length_cons] at ha
    exact ih (Memory.writeByte_within hm (by omega) v) (by omega)

/-- Writing consecutive bytes, at every offset. -/
theorem Memory.readByte_writeBytes {m : Memory} (hm : m.wf) (a a' : Nat) (vs : List Byte) :
    (m.writeBytes a vs).readByte a' =
      if a ≤ a' ∧ a' < a + vs.length then vs[a' - a]?.getD unlistedByte else m.readByte a' := by
  induction vs generalizing m a with
  | nil =>
    rw [if_neg (by simp only [List.length_nil]; omega)]
    rfl
  | cons v vs ih =>
    simp only [Memory.writeBytes, List.length_cons]
    rw [ih (Memory.writeByte_wf hm a v), Memory.readByte_writeByte hm]
    by_cases h0 : a' = a
    · subst h0
      rw [if_neg (by omega), if_pos rfl, if_pos (by omega)]
      simp
    · by_cases h1 : a + 1 ≤ a' ∧ a' < a + 1 + vs.length
      · rw [if_pos h1, if_pos (by omega)]
        obtain ⟨d, rfl⟩ : ∃ d, a' = a + 1 + d := ⟨a' - (a + 1), by omega⟩
        simp [show a + 1 + d - a = d + 1 by omega]
      · rw [if_neg h1, if_neg h0, if_neg (by omega)]

theorem Memory.ofBytes_wf (nbytes : Nat) (bytes : List Byte) : (Memory.ofBytes nbytes bytes).wf :=
  Memory.writeBytes_wf Memory.wf_nil 0 _

theorem Memory.ofBytes_within (nbytes : Nat) (bytes : List Byte) :
    Memory.within nbytes (Memory.ofBytes nbytes bytes) :=
  Memory.writeBytes_within (by simp) (by simp)

/-- The contents made of a list of bytes, at every offset. -/
theorem Memory.readByte_ofBytes (nbytes : Nat) (bytes : List Byte) (a : Nat) :
    (Memory.ofBytes nbytes bytes).readByte a = if a < nbytes then bytes[a]?.getD unlistedByte else unlistedByte := by
  simp only [Memory.ofBytes, Memory.readByte_writeBytes Memory.wf_nil, Memory.readByte_nil, Nat.zero_le, true_and,
    Nat.zero_add, Nat.sub_zero, List.length_take, List.getElem?_take]
  by_cases h : a < nbytes
  · by_cases h' : a < bytes.length
    · simp [h, h']
    · simp [h, h']
  · simp [h]

/-- The reset memory is in canonical form. -/
theorem State.reset_buf_wf : State.reset.buf.wf := Memory.ofBytes_wf _ _

/-! ## CLEAR's loop -/

theorem Memory.zeroBytes_wf {m : Memory} (hm : m.wf) (k : Nat) : (m.zeroBytes k).wf := by
  induction k with
  | zero => exact hm
  | succ k ih => exact Memory.writeByte_wf ih k _

theorem Memory.zeroBytes_within {m : Memory} {nbytes k : Nat} (hm : Memory.within nbytes m) (hk : k ≤ nbytes) :
    Memory.within nbytes (m.zeroBytes k) := by
  induction k with
  | zero => exact hm
  | succ k ih => exact Memory.writeByte_within (ih (by omega)) (by omega) _

theorem Memory.readByte_zeroBytes {m : Memory} (hm : m.wf) (k a : Nat) :
    (m.zeroBytes k).readByte a = if a < k then 0x00 else m.readByte a := by
  induction k with
  | zero => simp [Memory.zeroBytes]
  | succ k ih =>
    rw [Memory.zeroBytes, Memory.readByte_writeByte (Memory.zeroBytes_wf hm k), ih]
    split_ifs <;> first | rfl | omega

/-! ## Triplets and spans -/

theorem writeTriplet_wf {m : Memory} (hm : m.wf) (p : Nat) (r g b : Byte) : (writeTriplet m p r g b).wf :=
  Memory.writeBytes_wf hm _ _

theorem writeTriplet_within {m : Memory} {n p : Nat} (hm : Memory.within (3 * n) m) (hp : p < n) (r g b : Byte) :
    Memory.within (3 * n) (writeTriplet m p r g b) :=
  Memory.writeBytes_within hm (by simp only [List.length_cons, List.length_nil]; omega)

/-- The byte of a colour at place `k` of a triplet: G, R, B (20_memory.md R51). -/
def channelAt (r g b : Byte) (k : Nat) : Byte := if k = 0 then g else if k = 1 then r else b

/-- A triplet written, at every offset. -/
theorem readByte_writeTriplet {m : Memory} (hm : m.wf) (p a : Nat) (r g b : Byte) :
    (writeTriplet m p r g b).readByte a =
      if a / 3 = p then channelAt r g b (a % 3) else m.readByte a := by
  rw [writeTriplet, Memory.readByte_writeBytes hm]
  simp only [List.length_cons, List.length_nil, channelAt]
  by_cases h : a / 3 = p
  · rw [if_pos (by omega), if_pos h]
    have h3 : a - 3 * p = a % 3 := by omega
    rw [h3]
    have : a % 3 = 0 ∨ a % 3 = 1 ∨ a % 3 = 2 := by omega
    obtain h | h | h := this <;> simp [h]
  · rw [if_neg (by omega), if_neg h]

theorem writeSpan_wf {m : Memory} (hm : m.wf) (lo : Nat) (r g b : Byte) (k : Nat) : (writeSpan m lo r g b k).wf := by
  induction k with
  | zero => exact hm
  | succ k ih => exact writeTriplet_wf ih _ r g b

theorem writeSpan_within {m : Memory} {n lo k : Nat} (hm : Memory.within (3 * n) m) (h : lo + k ≤ n) (r g b : Byte) :
    Memory.within (3 * n) (writeSpan m lo r g b k) := by
  induction k with
  | zero => exact hm
  | succ k ih => exact writeTriplet_within (ih (by omega)) (by omega) r g b

/-- A span written, at every offset. -/
theorem readByte_writeSpan {m : Memory} (hm : m.wf) (lo k a : Nat) (r g b : Byte) :
    (writeSpan m lo r g b k).readByte a =
      if lo ≤ a / 3 ∧ a / 3 < lo + k then channelAt r g b (a % 3) else m.readByte a := by
  induction k with
  | zero => simp only [writeSpan]; rw [if_neg (by omega)]
  | succ k ih =>
    rw [writeSpan, readByte_writeTriplet (writeSpan_wf hm lo r g b k), ih]
    split_ifs <;> first | rfl | omega

/-! ## Contents are their reads -/

/-- Canonical contents with equal reads are equal data. -/
theorem Memory.ext_of_reads {m m' : Memory} (hm : m.wf) (hm' : m'.wf) (h : ∀ a, m.readByte a = m'.readByte a) :
    m = m' := by
  induction m generalizing m' with
  | nil =>
    cases m' with
    | nil => rfl
    | cons c m' =>
      obtain ⟨b, w⟩ := c
      have := h b
      simp only [Memory.readByte_nil, Memory.readByte_cons, if_true] at this
      exact absurd this.symm (Memory.wf_cons.mp hm').2.1
  | cons c m ih =>
    obtain ⟨b, w⟩ := c
    obtain ⟨hb, hw, hmr⟩ := Memory.wf_cons.mp hm
    cases m' with
    | nil =>
      have := h b
      simp only [Memory.readByte_nil, Memory.readByte_cons, if_true] at this
      exact absurd this hw
    | cons c' m' =>
      obtain ⟨b', w'⟩ := c'
      obtain ⟨hb', hw', hmr'⟩ := Memory.wf_cons.mp hm'
      have hlt : ∀ {x y : Nat} {u : Byte} {l : Memory}, x < y → (∀ c ∈ l, y < c.1) →
          Memory.readByte ((y, u) :: l) x = unlistedByte := by
        intro x y u l hxy hl
        rw [Memory.readByte_cons, if_neg (by omega)]
        exact Memory.readByte_of_all_above (fun c hc => lt_trans hxy (hl c hc))
      have hbb : b = b' := by
        rcases lt_trichotomy b b' with hlt' | heq | hgt
        · have := h b
          rw [Memory.readByte_cons, if_pos rfl, hlt hlt' hb'] at this
          exact absurd this hw
        · exact heq
        · have := h b'
          rw [hlt hgt hb, Memory.readByte_cons, if_pos rfl] at this
          exact absurd this.symm hw'
      subst hbb
      have hww : w = w' := by simpa [Memory.readByte_cons] using h b
      subst hww
      refine congrArg _ (ih hmr hmr' (fun a => ?_))
      by_cases hab : a = b
      · subst hab
        rw [Memory.readByte_of_all_above hb, Memory.readByte_of_all_above hb']
      · simpa [Memory.readByte_cons, hab] using h a

end Sys2Proof.Machine
end

