-- ==== Sys2Proof/Laws/State.lean ====
section
/-! SUPPORT. What each register update leaves in each field of State: one lemma per field per update, true by computation. -/

namespace Sys2Proof.Machine

section
variable (s : State) (m : Memory)

@[simp] theorem State.setBuf_cfg : (s.setBuf m).cfg = s.cfg := rfl
@[simp] theorem State.setBuf_buf : (s.setBuf m).buf = m := rfl
@[simp] theorem State.setBuf_phase : (s.setBuf m).phase = s.phase := rfl
@[simp] theorem State.setBuf_byteIdx : (s.setBuf m).byteIdx = s.byteIdx := rfl
@[simp] theorem State.setBuf_bitIdx : (s.setBuf m).bitIdx = s.bitIdx := rfl
@[simp] theorem State.setBuf_cur : (s.setBuf m).cur = s.cur := rfl
@[simp] theorem State.setBuf_cnt : (s.setBuf m).cnt = s.cnt := rfl
@[simp] theorem State.setBuf_result : (s.setBuf m).result = s.result := rfl
@[simp] theorem State.setBuf_inputs : (s.setBuf m).inputs = s.inputs := rfl

end

section
variable (s : State) (p : Phase)

@[simp] theorem State.setPhase_cfg : (s.setPhase p).cfg = s.cfg := rfl
@[simp] theorem State.setPhase_buf : (s.setPhase p).buf = s.buf := rfl
@[simp] theorem State.setPhase_phase : (s.setPhase p).phase = p := rfl
@[simp] theorem State.setPhase_byteIdx : (s.setPhase p).byteIdx = s.byteIdx := rfl
@[simp] theorem State.setPhase_bitIdx : (s.setPhase p).bitIdx = s.bitIdx := rfl
@[simp] theorem State.setPhase_cur : (s.setPhase p).cur = s.cur := rfl
@[simp] theorem State.setPhase_cnt : (s.setPhase p).cnt = s.cnt := rfl
@[simp] theorem State.setPhase_result : (s.setPhase p).result = s.result := rfl
@[simp] theorem State.setPhase_inputs : (s.setPhase p).inputs = s.inputs := rfl

end

section
variable (s : State) (b : Nat)

@[simp] theorem State.setByteIdx_cfg : (s.setByteIdx b).cfg = s.cfg := rfl
@[simp] theorem State.setByteIdx_buf : (s.setByteIdx b).buf = s.buf := rfl
@[simp] theorem State.setByteIdx_phase : (s.setByteIdx b).phase = s.phase := rfl
@[simp] theorem State.setByteIdx_byteIdx : (s.setByteIdx b).byteIdx = BitVec.ofNat 16 b := rfl
@[simp] theorem State.setByteIdx_bitIdx : (s.setByteIdx b).bitIdx = s.bitIdx := rfl
@[simp] theorem State.setByteIdx_cur : (s.setByteIdx b).cur = s.cur := rfl
@[simp] theorem State.setByteIdx_cnt : (s.setByteIdx b).cnt = s.cnt := rfl
@[simp] theorem State.setByteIdx_result : (s.setByteIdx b).result = s.result := rfl
@[simp] theorem State.setByteIdx_inputs : (s.setByteIdx b).inputs = s.inputs := rfl

end

section
variable (s : State) (k : Nat)

@[simp] theorem State.setBitIdx_cfg : (s.setBitIdx k).cfg = s.cfg := rfl
@[simp] theorem State.setBitIdx_buf : (s.setBitIdx k).buf = s.buf := rfl
@[simp] theorem State.setBitIdx_phase : (s.setBitIdx k).phase = s.phase := rfl
@[simp] theorem State.setBitIdx_byteIdx : (s.setBitIdx k).byteIdx = s.byteIdx := rfl
@[simp] theorem State.setBitIdx_bitIdx : (s.setBitIdx k).bitIdx = BitVec.ofNat 3 k := rfl
@[simp] theorem State.setBitIdx_cur : (s.setBitIdx k).cur = s.cur := rfl
@[simp] theorem State.setBitIdx_cnt : (s.setBitIdx k).cnt = s.cnt := rfl
@[simp] theorem State.setBitIdx_result : (s.setBitIdx k).result = s.result := rfl
@[simp] theorem State.setBitIdx_inputs : (s.setBitIdx k).inputs = s.inputs := rfl

end

section
variable (s : State) (v : Bool)

@[simp] theorem State.setCur_cfg : (s.setCur v).cfg = s.cfg := rfl
@[simp] theorem State.setCur_buf : (s.setCur v).buf = s.buf := rfl
@[simp] theorem State.setCur_phase : (s.setCur v).phase = s.phase := rfl
@[simp] theorem State.setCur_byteIdx : (s.setCur v).byteIdx = s.byteIdx := rfl
@[simp] theorem State.setCur_bitIdx : (s.setCur v).bitIdx = s.bitIdx := rfl
@[simp] theorem State.setCur_cur : (s.setCur v).cur = v := rfl
@[simp] theorem State.setCur_cnt : (s.setCur v).cnt = s.cnt := rfl
@[simp] theorem State.setCur_result : (s.setCur v).result = s.result := rfl
@[simp] theorem State.setCur_inputs : (s.setCur v).inputs = s.inputs := rfl

end

section
variable (s : State) (k : Nat)

@[simp] theorem State.setCnt_cfg : (s.setCnt k).cfg = s.cfg := rfl
@[simp] theorem State.setCnt_buf : (s.setCnt k).buf = s.buf := rfl
@[simp] theorem State.setCnt_phase : (s.setCnt k).phase = s.phase := rfl
@[simp] theorem State.setCnt_byteIdx : (s.setCnt k).byteIdx = s.byteIdx := rfl
@[simp] theorem State.setCnt_bitIdx : (s.setCnt k).bitIdx = s.bitIdx := rfl
@[simp] theorem State.setCnt_cur : (s.setCnt k).cur = s.cur := rfl
@[simp] theorem State.setCnt_cnt : (s.setCnt k).cnt = BitVec.ofNat 32 k := rfl
@[simp] theorem State.setCnt_result : (s.setCnt k).result = s.result := rfl
@[simp] theorem State.setCnt_inputs : (s.setCnt k).inputs = s.inputs := rfl

end

section
variable (s : State) (r : ResultCode)

@[simp] theorem State.setResult_cfg : (s.setResult r).cfg = s.cfg := rfl
@[simp] theorem State.setResult_buf : (s.setResult r).buf = s.buf := rfl
@[simp] theorem State.setResult_phase : (s.setResult r).phase = s.phase := rfl
@[simp] theorem State.setResult_byteIdx : (s.setResult r).byteIdx = s.byteIdx := rfl
@[simp] theorem State.setResult_bitIdx : (s.setResult r).bitIdx = s.bitIdx := rfl
@[simp] theorem State.setResult_cur : (s.setResult r).cur = s.cur := rfl
@[simp] theorem State.setResult_cnt : (s.setResult r).cnt = s.cnt := rfl
@[simp] theorem State.setResult_result : (s.setResult r).result = r := rfl
@[simp] theorem State.setResult_inputs : (s.setResult r).inputs = s.inputs := rfl

end

section
variable (s : State)

@[simp] theorem State.nextCycle_cfg : s.nextCycle.cfg = s.cfg := rfl
@[simp] theorem State.nextCycle_buf : s.nextCycle.buf = s.buf := rfl
@[simp] theorem State.nextCycle_phase : s.nextCycle.phase = s.phase := rfl
@[simp] theorem State.nextCycle_byteIdx : s.nextCycle.byteIdx = s.byteIdx := rfl
@[simp] theorem State.nextCycle_bitIdx : s.nextCycle.bitIdx = s.bitIdx := rfl
@[simp] theorem State.nextCycle_cur : s.nextCycle.cur = s.cur := rfl
@[simp] theorem State.nextCycle_cnt : s.nextCycle.cnt = s.cnt := rfl
@[simp] theorem State.nextCycle_result : s.nextCycle.result = s.result := rfl
@[simp] theorem State.nextCycle_inputs : s.nextCycle.inputs = s.inputs.tail := rfl

end

section
variable (c : Config) (bytes : List Byte) (ins : List PortInput)

@[simp] theorem State.resetOf_cfg : (State.resetOf c bytes ins).cfg = c := rfl
@[simp] theorem State.resetOf_buf : (State.resetOf c bytes ins).buf = Memory.ofBytes c.nbytes bytes := rfl
@[simp] theorem State.resetOf_phase : (State.resetOf c bytes ins).phase = .idle := rfl
@[simp] theorem State.resetOf_byteIdx : (State.resetOf c bytes ins).byteIdx = 0 := rfl
@[simp] theorem State.resetOf_bitIdx : (State.resetOf c bytes ins).bitIdx = 0 := rfl
@[simp] theorem State.resetOf_cur : (State.resetOf c bytes ins).cur = false := rfl
@[simp] theorem State.resetOf_cnt : (State.resetOf c bytes ins).cnt = 0 := rfl
@[simp] theorem State.resetOf_result : (State.resetOf c bytes ins).result = .ok := rfl
@[simp] theorem State.resetOf_inputs : (State.resetOf c bytes ins).inputs = ins := rfl

end

end Sys2Proof.Machine
end

