-- ==== Sys2Proof/Laws/Ops.lean ====
section
/-! SUPPORT. One lemma per shared operation that says everything it can do, so that a proof cites it and does not unfold the
operation. -/

namespace Sys2Proof.Machine

/-! ## How a command ends -/

theorem complete_eq (s : State) : complete s = .next (s.setResult .ok) := rfl

theorem reject_eq (code : ResultCode) (s : State) : reject code s = .next (s.setResult code) := rfl

/-- A bit of the buffer is read exactly where its offset exists. -/
theorem State.bufBit?_eq_some {s : State} {i k : Nat} {v : Bool} :
    s.bufBit? i k = some v ↔ i < s.cfg.nbytes ∧ v = (s.buf.readByte i).getLsbD k := by
  unfold State.bufBit?
  split_ifs with h <;> simp [h, eq_comm]

theorem State.bufBit?_of_lt {s : State} {i : Nat} (k : Nat) (h : i < s.cfg.nbytes) :
    s.bufBit? i k = some ((s.buf.readByte i).getLsbD k) := State.bufBit?_eq_some.mpr ⟨h, rfl⟩

/-! ## Block reset -/

section
variable (s : State)

@[simp] theorem blockReset_cfg : (blockReset s).cfg = s.cfg := rfl
@[simp] theorem blockReset_buf : (blockReset s).buf = s.buf := rfl
@[simp] theorem blockReset_phase : (blockReset s).phase = .idle := rfl
@[simp] theorem blockReset_byteIdx : (blockReset s).byteIdx = 0 := rfl
@[simp] theorem blockReset_bitIdx : (blockReset s).bitIdx = 0 := rfl
@[simp] theorem blockReset_cur : (blockReset s).cur = false := rfl
@[simp] theorem blockReset_cnt : (blockReset s).cnt = 0 := rfl
@[simp] theorem blockReset_result : (blockReset s).result = .ok := rfl
@[simp] theorem blockReset_inputs : (blockReset s).inputs = s.inputs := rfl

end

/-! ## The sequencer's operations -/

section
variable (i k : Nat) (v : Bool) (s : State)

@[simp] theorem startBit_cfg : (startBit i k v s).cfg = s.cfg := rfl
@[simp] theorem startBit_buf : (startBit i k v s).buf = s.buf := rfl
@[simp] theorem startBit_phase : (startBit i k v s).phase = .emitHigh := rfl
@[simp] theorem startBit_byteIdx : (startBit i k v s).byteIdx = BitVec.ofNat 16 i := rfl
@[simp] theorem startBit_bitIdx : (startBit i k v s).bitIdx = BitVec.ofNat 3 k := rfl
@[simp] theorem startBit_cur : (startBit i k v s).cur = v := rfl
@[simp] theorem startBit_cnt : (startBit i k v s).cnt = BitVec.ofNat 32 (s.cfg.highCyc v - 1) := rfl
@[simp] theorem startBit_result : (startBit i k v s).result = s.result := rfl
@[simp] theorem startBit_inputs : (startBit i k v s).inputs = s.inputs := rfl

end

theorem countDown_eq (s : State) : countDown s = s.setCnt (s.cnt.toNat - 1) := rfl

/-- Everything StepHigh can do. -/
theorem stepHigh_cases (s : State) :
    (0 < s.cnt.toNat ∧ stepHigh s = s.setCnt (s.cnt.toNat - 1)) ∨
    (s.cnt.toNat = 0 ∧ stepHigh s = (s.setPhase .emitLow).setCnt (s.cfg.lowCyc s.cur - 1)) := by
  unfold stepHigh
  split_ifs with h
  · exact .inl ⟨h, rfl⟩
  · exact .inr ⟨by omega, rfl⟩

/-- Everything StepGap can do. -/
theorem stepGap_cases (s : State) :
    (0 < s.cnt.toNat ∧ stepGap s = s.setCnt (s.cnt.toNat - 1)) ∨
    (s.cnt.toNat = 0 ∧ stepGap s = s.setPhase .idle) := by
  unfold stepGap
  split_ifs with h
  · exact .inl ⟨h, rfl⟩
  · exact .inr ⟨by omega, rfl⟩

/-- Everything StepLow can do; the last case is its one fault. -/
theorem stepLow_cases (s : State) :
    (0 < s.cnt.toNat ∧ stepLow s = .next (s.setCnt (s.cnt.toNat - 1))) ∨
    (s.cnt.toNat = 0 ∧ lastBit s.cfg s.byteIdx.toNat s.bitIdx.toNat = true ∧
      stepLow s = .next ((s.setPhase .resetGap).setCnt (s.cfg.resetCyc - 1))) ∨
    (s.cnt.toNat = 0 ∧ lastBit s.cfg s.byteIdx.toNat s.bitIdx.toNat = false ∧
      ∃ nb nk, nextBit s.byteIdx.toNat s.bitIdx.toNat = (nb, nk) ∧
        ((nb < s.cfg.nbytes ∧ stepLow s = .next (startBit nb nk ((s.buf.readByte nb).getLsbD nk) s)) ∨
         (s.cfg.nbytes ≤ nb ∧ stepLow s = .fault .bufferOffsetOutOfRange))) := by
  unfold stepLow
  split_ifs with h hl
  · exact .inl ⟨h, rfl⟩
  · exact .inr (.inl ⟨by omega, hl, rfl⟩)
  · refine .inr (.inr ⟨by omega, by simpa using hl,
      (nextBit s.byteIdx.toNat s.bitIdx.toNat).1, (nextBit s.byteIdx.toNat s.bitIdx.toNat).2, rfl, ?_⟩)
    by_cases hb : (nextBit s.byteIdx.toNat s.bitIdx.toNat).1 < s.cfg.nbytes
    · exact .inl ⟨hb, by simp only [State.bufBit?_of_lt _ hb]⟩
    · exact .inr ⟨not_lt.mp hb, by simp only [State.bufBit?, if_neg hb]⟩

/-- A bit's place in the frame: `8·b + (7 − k)`; `Next` moves it up by one (41_encoder.md R134). -/
theorem nextBit_place {i k : Nat} (hk : k ≤ 7) :
    8 * (nextBit i k).1 + (7 - (nextBit i k).2) = 8 * i + (7 - k) + 1 ∧ (nextBit i k).2 ≤ 7 := by
  unfold nextBit
  split_ifs <;> simp only <;> omega

theorem lastBit_eq_true {c : Config} {i k : Nat} : lastBit c i k = true ↔ i = c.nbytes - 1 ∧ k = 0 := by
  simp [lastBit]

/-! ## The commands -/

theorem execClear_true (s : State) :
    execClear true s = .next ((s.setBuf (s.buf.zeroBytes s.cfg.nbytes)).setResult .ok) := rfl

theorem execClear_false (s : State) : execClear false s = .next (s.setResult .invalidArg) := rfl

theorem setcolorArgsValid_eq_true {c : Config} {p : Bool} {pos : Nat} :
    setcolorArgsValid c p pos = true ↔ p = true ∧ pos < c.n := by
  simp [setcolorArgsValid, positionInRange]

theorem setrangeArgsValid_eq_true {c : Config} {p : Bool} {a e : Nat} :
    setrangeArgsValid c p a e = true ↔ p = true ∧ a < c.n ∧ e < c.n ∧ a ≠ e := by
  simp [setrangeArgsValid, positionInRange, and_assoc]

theorem execSetcolor_of_valid {s : State} {p : Bool} {pos : Nat} (r g b : Byte)
    (h : setcolorArgsValid s.cfg p pos = true) :
    execSetcolor p r g b pos s = .next ((s.setBuf (writeTriplet s.buf pos r g b)).setResult .ok) := by
  rw [execSetcolor, if_pos h, complete_eq]

theorem execSetcolor_of_invalid {s : State} {p : Bool} {pos : Nat} (r g b : Byte)
    (h : ¬ setcolorArgsValid s.cfg p pos = true) :
    execSetcolor p r g b pos s = .next (s.setResult .invalidArg) := by
  rw [execSetcolor, if_neg h, reject_eq]

theorem execSetrange_of_valid {s : State} {p : Bool} {a e : Nat} (r g b : Byte)
    (h : setrangeArgsValid s.cfg p a e = true) :
    execSetrange p r g b a e s =
      .next ((s.setBuf (writeSpan s.buf (spanLo a e) r g b (spanCount a e))).setResult .ok) := by
  rw [execSetrange, if_pos h, complete_eq]

theorem execSetrange_of_invalid {s : State} {p : Bool} {a e : Nat} (r g b : Byte)
    (h : ¬ setrangeArgsValid s.cfg p a e = true) :
    execSetrange p r g b a e s = .next (s.setResult .invalidArg) := by
  rw [execSetrange, if_neg h, reject_eq]

theorem execTransmit_true {s : State} (h : 0 < s.cfg.nbytes) :
    execTransmit true s = .next ((startBit 0 7 ((s.buf.readByte 0).getLsbD 7) s).setResult .ok) := by
  simp only [execTransmit, State.bufBit?_of_lt 7 h, complete_eq, if_true]

theorem execTransmit_false (s : State) : execTransmit false s = .next (s.setResult .invalidArg) := rfl

end Sys2Proof.Machine
end

