-- ==== Sys2Proof/Laws/Exec.lean ====
section
/-! SUPPORT. Everything an executed command can do, said once: rejected, a buffer command performed, or a frame started. -/

namespace Sys2Proof.Machine

/-- If a command answers a next state, it was rejected with only `RESULT` written, or it was a buffer command that wrote the
buffer (kept canonical and in the address space) and `OK`, or it was TRANSMIT and a frame starts. -/
theorem exec_cases {i : Instr} {s t : State} (h : exec i s = .next t) :
    (commandResult s.cfg (.command i) = .invalidArg ∧ t = s.setResult .invalidArg) ∨
    (isBufferCommand i = true ∧ commandResult s.cfg (.command i) = .ok ∧
      ∃ m : Memory, t = (s.setBuf m).setResult .ok ∧ (s.buf.wf → m.wf) ∧
        (Memory.within s.cfg.nbytes s.buf → Memory.within s.cfg.nbytes m)) ∨
    (i = .transmit true ∧ 0 < s.cfg.nbytes ∧
      t = (startBit 0 7 ((s.buf.readByte 0).getLsbD 7) s).setResult .ok) := by
  cases i with
  | clear p =>
    cases p
    · exact .inl ⟨rfl, by simpa [exec, execClear_false] using h.symm⟩
    · refine .inr (.inl ⟨rfl, rfl, _, by simpa [exec, execClear_true] using h.symm, fun hw => Memory.zeroBytes_wf hw _,
        fun hw => Memory.zeroBytes_within hw le_rfl⟩)
  | setcolor p r g b pos =>
    by_cases hv : setcolorArgsValid s.cfg p pos = true
    · have hv' := setcolorArgsValid_eq_true.mp hv
      rw [exec, execSetcolor_of_valid r g b hv] at h
      refine .inr (.inl ⟨rfl, if_pos hv', _, by simpa using h.symm, fun hw => writeTriplet_wf hw _ _ _ _,
        fun hw => writeTriplet_within hw hv'.2 _ _ _⟩)
    · rw [exec, execSetcolor_of_invalid r g b hv] at h
      exact .inl ⟨if_neg (mt setcolorArgsValid_eq_true.mpr hv), by simpa using h.symm⟩
  | setrange p r g b a e =>
    by_cases hv : setrangeArgsValid s.cfg p a e = true
    · have hv' := setrangeArgsValid_eq_true.mp hv
      rw [exec, execSetrange_of_valid r g b hv] at h
      refine .inr (.inl ⟨rfl, if_pos hv', _, by simpa using h.symm, fun hw => writeSpan_wf hw _ _ _ _ _,
        fun hw => writeSpan_within hw ?_ _ _ _⟩)
      simp only [spanLo, spanCount]
      omega
    · rw [exec, execSetrange_of_invalid r g b hv] at h
      exact .inl ⟨if_neg (mt setrangeArgsValid_eq_true.mpr hv), by simpa using h.symm⟩
  | transmit p =>
    cases p
    · exact .inl ⟨rfl, by simpa [exec, execTransmit_false] using h.symm⟩
    · by_cases hn : 0 < s.cfg.nbytes
      · rw [exec, execTransmit_true hn] at h
        exact .inr (.inr ⟨rfl, hn, by simpa using h.symm⟩)
      · simp [exec, execTransmit, State.bufBit?, hn] at h

/-- No command touches the parameters or the inputs. -/
theorem exec_keeps_cfg_inputs {i : Instr} {s t : State} (h : exec i s = .next t) :
    t.cfg = s.cfg ∧ t.inputs = s.inputs := by
  obtain ⟨-, rfl⟩ | ⟨-, -, m, rfl, -, -⟩ | ⟨-, -, rfl⟩ := exec_cases h <;> exact ⟨rfl, rfl⟩

/-- The sequencer's steps keep the parameters, the inputs, the buffer and `RESULT`. -/
theorem stepHigh_keeps (s : State) :
    (stepHigh s).cfg = s.cfg ∧ (stepHigh s).inputs = s.inputs ∧ (stepHigh s).buf = s.buf ∧
      (stepHigh s).result = s.result := by
  obtain ⟨-, h⟩ | ⟨-, h⟩ := stepHigh_cases s <;> rw [h] <;> exact ⟨rfl, rfl, rfl, rfl⟩

theorem stepGap_keeps (s : State) :
    (stepGap s).cfg = s.cfg ∧ (stepGap s).inputs = s.inputs ∧ (stepGap s).buf = s.buf ∧
      (stepGap s).result = s.result := by
  obtain ⟨-, h⟩ | ⟨-, h⟩ := stepGap_cases s <;> rw [h] <;> exact ⟨rfl, rfl, rfl, rfl⟩

theorem stepLow_keeps {s t : State} (h : stepLow s = .next t) :
    t.cfg = s.cfg ∧ t.inputs = s.inputs ∧ t.buf = s.buf ∧ t.result = s.result := by
  obtain ⟨-, h'⟩ | ⟨-, -, h'⟩ | ⟨-, -, nb, nk, -, ⟨-, h'⟩ | ⟨-, h'⟩⟩ := stepLow_cases s <;> rw [h'] at h
  · cases h; exact ⟨rfl, rfl, rfl, rfl⟩
  · cases h; exact ⟨rfl, rfl, rfl, rfl⟩
  · cases h; exact ⟨rfl, rfl, rfl, rfl⟩
  · exact absurd h (by simp)

end Sys2Proof.Machine
end

