-- ==== Sys2Proof/Laws/PerInstr.lean ====
section
/-! SUPPORT. Statements made per instruction, about its encoding: the word of a command carries the command's opcode (R72), a
zero reserved field (R74) and the command's buffer-present bit (R70). -/

namespace Sys2Proof.Laws.EncodedRow

/-- The opcode of a command's row (30_encoding.md R72). -/
def opcodeOf : Instr → BitVec 4
  | .clear _ => 1
  | .setcolor _ _ _ _ _ => 2
  | .setrange _ _ _ _ _ _ => 3
  | .transmit _ => 4

/-- The buffer-present bit of a command. -/
def presentOf : Instr → Bool
  | .clear p => p
  | .setcolor p _ _ _ _ => p
  | .setrange p _ _ _ _ _ => p
  | .transmit p => p

def Statement (i : Instr) : Prop :=
  fieldOp (encode i) = opcodeOf i ∧ fieldRsv (encode i) = 0 ∧ fieldP (encode i) = presentOf i

theorem clear (present : Bool) : Statement (.clear present) := by
  simp [Statement, encode, opcodeOf, presentOf]

theorem setcolor (present : Bool) (r g b : Byte) (pos : Nat) : Statement (.setcolor present r g b pos) := by
  simp [Statement, encode, opcodeOf, presentOf]

theorem setrange (present : Bool) (r g b : Byte) (start stop : Nat) :
    Statement (.setrange present r g b start stop) := by
  simp [Statement, encode, opcodeOf, presentOf]

theorem transmit (present : Bool) : Statement (.transmit present) := by
  simp [Statement, encode, opcodeOf, presentOf]

end Sys2Proof.Laws.EncodedRow
end

