-- ==== Sys2Proof/Laws/Step.lean ====
section
/-! SUPPORT. What one cycle can do, said once (`step_cases`), the cycle of each phase, and the laws of runs. -/

namespace Sys2Proof.Machine

/-! ## Inputs -/

theorem State.input_eq_inputAt_zero (s : State) : s.input = s.inputAt 0 := by
  cases h : s.inputs <;> simp [State.input, State.inputAt, h]

@[simp] theorem State.inputAt_nextCycle (s : State) (j : Nat) : s.nextCycle.inputAt j = s.inputAt (j + 1) := by
  cases h : s.inputs <;> simp [State.inputAt, State.nextCycle, h]

theorem State.inputAt_congr {s t : State} (h : s.inputs = t.inputs) (j : Nat) : s.inputAt j = t.inputAt j := by
  rw [State.inputAt, State.inputAt, h]

/-! ## One cycle -/

theorem step_of_legal {s : State} (h : s.cfg.Legal) : step s = stepWith s.input s.nextCycle := if_pos h

theorem step_of_emitHigh {s : State} (h : s.cfg.Legal) (hr : s.input.rst = false) (hp : s.phase = .emitHigh) :
    step s = .next (stepHigh s.nextCycle) := by
  simp [step_of_legal h, stepWith, hr, hp]

theorem step_of_emitLow {s : State} (h : s.cfg.Legal) (hr : s.input.rst = false) (hp : s.phase = .emitLow) :
    step s = stepLow s.nextCycle := by
  simp [step_of_legal h, stepWith, hr, hp]

theorem step_of_resetGap {s : State} (h : s.cfg.Legal) (hr : s.input.rst = false) (hp : s.phase = .resetGap) :
    step s = .next (stepGap s.nextCycle) := by
  simp [step_of_legal h, stepWith, hr, hp]

theorem step_of_rst {s : State} (h : s.cfg.Legal) (hr : s.input.rst = true) :
    step s = .next (blockReset s.nextCycle) := by
  simp [step_of_legal h, stepWith, hr]

theorem step_of_quiet {s : State} (h : s.cfg.Legal) (hr : s.input.rst = false) (hp : s.phase = .idle)
    (hv : s.input.cmdValid = false) : step s = .next s.nextCycle := by
  simp [step_of_legal h, stepWith, hr, hp, hv]

/-- The ways a cycle that answers a next state can go, with everything that holds in each. -/
theorem step_cases {s t : State} (h : step s = .next t) :
    s.cfg.Legal ∧
      ((s.input.rst = true ∧ t = blockReset s.nextCycle) ∨
       (s.input.rst = false ∧
        ((s.phase = .idle ∧
          ((s.input.cmdValid = false ∧ t = s.nextCycle) ∨
           (s.input.cmdValid = true ∧
            ((∃ why, decode s.input.cmdWord = .reserved why ∧ t = s.nextCycle.setResult .invalidCmd) ∨
             (∃ i, decode s.input.cmdWord = .command i ∧ exec i s.nextCycle = .next t))))) ∨
         (s.phase = .emitHigh ∧ t = stepHigh s.nextCycle) ∨
         (s.phase = .emitLow ∧ stepLow s.nextCycle = .next t) ∨
         (s.phase = .resetGap ∧ t = stepGap s.nextCycle)))) := by
  by_cases hl : s.cfg.Legal
  · refine ⟨hl, ?_⟩
    rw [step_of_legal hl, stepWith] at h
    cases hr : s.input.rst
    · refine .inr ⟨rfl, ?_⟩
      rw [hr] at h
      simp only [State.nextCycle_phase, Bool.false_eq_true, if_false] at h
      cases hp : s.phase <;> simp only [hp] at h
      · refine .inl ⟨rfl, ?_⟩
        cases hv : s.input.cmdValid <;> simp only [hv, Bool.false_eq_true, if_false, if_true] at h
        · exact .inl ⟨rfl, by simpa using h.symm⟩
        · refine .inr ⟨rfl, ?_⟩
          rw [executeWord] at h
          cases hd : decode s.input.cmdWord with
          | command i => exact .inr ⟨i, rfl, by simpa [hd] using h⟩
          | reserved why => exact .inl ⟨why, rfl, by simpa [hd, reject_eq] using h.symm⟩
      · exact .inr (.inl ⟨rfl, by simpa using h.symm⟩)
      · exact .inr (.inr (.inl ⟨rfl, h⟩))
      · exact .inr (.inr (.inr ⟨rfl, by simpa using h.symm⟩))
    · exact .inl ⟨rfl, by simpa [hr] using h.symm⟩
  · simp [step, cycle, hl] at h

/-- The clock moves the inputs on by one cycle, and the parameters stay. -/
theorem step_keeps_cfg_moves_inputs {s t : State} (h : step s = .next t) :
    t.cfg = s.cfg ∧ t.inputs = s.inputs.tail := by
  obtain ⟨-, hc⟩ := step_cases h
  obtain ⟨-, rfl⟩ | ⟨-, ⟨-, ⟨-, rfl⟩ | ⟨-, ⟨-, -, rfl⟩ | ⟨i, -, hi⟩⟩⟩ | ⟨-, rfl⟩ | ⟨-, hi⟩ | ⟨-, rfl⟩⟩ := hc
  · exact ⟨rfl, rfl⟩
  · exact ⟨rfl, rfl⟩
  · exact ⟨rfl, rfl⟩
  · exact exec_keeps_cfg_inputs hi
  · exact ⟨(stepHigh_keeps _).1, (stepHigh_keeps _).2.1⟩
  · exact ⟨(stepLow_keeps hi).1, (stepLow_keeps hi).2.1⟩
  · exact ⟨(stepGap_keeps _).1, (stepGap_keeps _).2.1⟩

/-! ## Runs -/

@[simp] theorem runCycles_zero (s : State) : runCycles 0 s = .next s := rfl

theorem runCycles_succ_of_next {s t : State} (h : step s = .next t) (k : Nat) :
    runCycles (k + 1) s = runCycles k t := by
  rw [runCycles, h]

theorem coreRun_succ_of_next {M : Host.Core} {s t : M.State} (h : M.step s = .next t) (k : Nat) :
    M.run (k + 1) s = M.run k t := by
  rw [Host.Core.run, h]

theorem coreRun_succ_of_fault {M : Host.Core} {s : M.State} {f : M.Fault} (h : M.step s = .fault f) (k : Nat) :
    M.run (k + 1) s = .fault f := by
  rw [Host.Core.run, h]

theorem coreRun_succ_of_refused {M : Host.Core} {s : M.State} {r : M.Refusal} (h : M.step s = .refused r) (k : Nat) :
    M.run (k + 1) s = .refused r := by
  rw [Host.Core.run, h]

/-- The machine's run is the host interface's run. -/
theorem runCycles_eq_core_run (k : Nat) (s : State) : runCycles k s = Host.Core.run Sys2Proof.core k s := by
  induction k generalizing s with
  | zero => rfl
  | succ k ih =>
    rw [runCycles]
    cases h : step s with
    | next t => exact (ih t).trans (coreRun_succ_of_next (M := Sys2Proof.core) h k).symm
    | fault f => exact (coreRun_succ_of_fault (M := Sys2Proof.core) h k).symm
    | refused r => exact (coreRun_succ_of_refused (M := Sys2Proof.core) h k).symm

/-- A run of `j` cycles and then `k` more. -/
theorem After.add {j k : Nat} {s t u : State} (h : After j s t) (h' : After k t u) : After (j + k) s u := by
  induction j generalizing s with
  | zero =>
    have : s = t := by simpa [After] using h
    subst this
    simpa using h'
  | succ j ih =>
    rw [After, runCycles] at h
    cases hs : step s with
    | next v =>
      rw [hs] at h
      rw [Nat.add_right_comm, After, runCycles_succ_of_next hs]
      exact ih h
    | fault f => simp [hs] at h
    | refused r => simp [hs] at h

theorem After.zero (s : State) : After 0 s s := rfl

theorem After.one {s t : State} (h : step s = .next t) : After 1 s t := by
  rw [After, runCycles_succ_of_next h, runCycles_zero]

/-- A run, taken apart at its first cycle. -/
theorem After.succ_cases {k : Nat} {s u : State} (h : After (k + 1) s u) : ∃ t, step s = .next t ∧ After k t u := by
  rw [After, runCycles] at h
  cases hs : step s with
  | next t => exact ⟨t, rfl, by rw [hs] at h; exact h⟩
  | fault f => simp [hs] at h
  | refused r => simp [hs] at h

/-- A run, taken apart at its last cycle. -/
theorem After.succ_last {k : Nat} {s u : State} (h : After (k + 1) s u) : ∃ t, After k s t ∧ step t = .next u := by
  induction k generalizing s with
  | zero =>
    obtain ⟨t, ht, h0⟩ := h.succ_cases
    have : t = u := by simpa [After] using h0
    subst this
    exact ⟨s, rfl, ht⟩
  | succ k ih =>
    obtain ⟨t, ht, h0⟩ := h.succ_cases
    obtain ⟨v, hv, hu⟩ := ih h0
    exact ⟨v, by rw [After, runCycles_succ_of_next ht]; exact hv, hu⟩

theorem After.unique {k : Nat} {s t u : State} (h : After k s t) (h' : After k s u) : t = u := by
  rw [After] at h h'
  rw [h] at h'
  simpa using h'

/-- What the host drives `j` cycles after the end of a run of `k` is what it drives `k + j` cycles after its start. -/
theorem After.inputAt {k : Nat} {s t : State} (h : After k s t) (j : Nat) : t.inputAt j = s.inputAt (k + j) := by
  induction k generalizing s with
  | zero =>
    have : s = t := by simpa [After] using h
    rw [this, Nat.zero_add]
  | succ k ih =>
    obtain ⟨u, hu, h'⟩ := h.succ_cases
    rw [ih h', State.inputAt_congr (t := s.nextCycle) (step_keeps_cfg_moves_inputs hu).2, State.inputAt_nextCycle]
    congr 1
    omega

theorem After.input {k : Nat} {s t : State} (h : After k s t) : t.input = s.inputAt k := by
  rw [State.input_eq_inputAt_zero, h.inputAt, Nat.add_zero]

end Sys2Proof.Machine
end

