-- ==== Sys2Proof/Tests/Slice0.lean ====
section
/-! SUPPORT. Tests against the spec's own vectors (95_test_vectors.md), the checks of well-formedness, and for every
statement with hypotheses a witness that meets them. Expected results are copied from the spec's tables, named in each
comment. -/

namespace Sys2Proof.Tests

open Sys2Proof.Machine

/-! ## Helpers -/

/-- A cycle in which the host presents a word. -/
def cmd (w : CmdWord) : PortInput := { rst := false, cmdValid := true, cmdWord := w, rdAddr := 0 }

/-- A cycle with `RST = 1` and a word presented all the same. -/
def rstWith (w : CmdWord) : PortInput := { rst := true, cmdValid := true, cmdWord := w, rdAddr := 0 }

/-- The toy block with `n` LEDs, idle, its buffer holding `bytes`, and the host driving `ins`. -/
def idleState (n : Nat) (bytes : List Byte) (ins : List PortInput) : State := State.resetOf (Config.toy n) bytes ins

/-- The toy block with one LED, in a frame that sends 0xA5, 0x00, 0xFF (V-E1), at a given position. -/
def busyState (ph : Phase) (byte : BitVec 16) (bit : BitVec 3) (cur : Bool) (cnt : BitVec 32) (ins : List PortInput) :
    State :=
  { idleState 1 [0xA5, 0x00, 0xFF] ins with phase := ph, byteIdx := byte, bitIdx := bit, cur := cur, cnt := cnt }

/-- The next state, where there is one. -/
def next? (o : StepOutcome) : Option State :=
  match o with
  | .next t => some t
  | .fault _ => none
  | .refused _ => none

/-- `STATUS` and the buffer's bytes after one step. -/
def seen (s : State) : Option (BitVec 8 × List Byte) :=
  (next? (step s)).map (fun t => (status t, t.buf.toBytes t.cfg.nbytes))

/-! ## Well-formedness: each check refuses an ill-formed command -/

theorem test_wf_setcolor_position_too_wide : (Instr.setcolor true 1 2 3 65536).wf = false := by decide
theorem test_wf_setrange_start_too_wide : (Instr.setrange true 1 2 3 65536 0).wf = false := by decide
theorem test_wf_setrange_end_too_wide : (Instr.setrange true 1 2 3 0 65536).wf = false := by decide
theorem test_wf_boundary : (Instr.setrange true 1 2 3 65535 65535).wf = true := by decide

/-! ## Decoding (V-D1 to V-D9, 2.2 to 2.4), and the table reader -/

theorem test_decode_clear : decode 0x1800000000000000 = .command (.clear true) := by decide
theorem test_decode_setcolor : decode 0x28ABCDEF00010000 = .command (.setcolor true 0xAB 0xCD 0xEF 1) := by decide
theorem test_decode_setrange : decode 0x3001020300000007 = .command (.setrange false 1 2 3 0 7) := by decide
theorem test_decode_transmit : decode 0x48FFFFFFFFFFFFFF = .command (.transmit true) := by decide
theorem test_decode_opcode_five : decode 0x5800000000000000 = .reserved (.reservedOpcode 5) := by decide
theorem test_decode_reserved_bits : decode 0x4C00000000000000 = .reserved (.reservedBits 4) := by decide
theorem test_decode_table_word : decodeTableWord 64 0x2000000000000000 = some (.setcolor false 0 0 0 0) := by decide
theorem test_encode_setcolor : encode (.setcolor true 10 20 30 65535) = 0x280A141EFFFF0000 := by decide

/-! ## One step of each command -/

/-- V-K1, V-K2. -/
theorem test_clear : seen (idleState 2 [1, 2, 3, 4, 5, 6] [cmd 0x1800000000000000]) = some (0x00, [0, 0, 0, 0, 0, 0]) := by
  decide
theorem test_clear_nobuf :
    seen (idleState 2 [1, 2, 3, 4, 5, 6] [cmd 0x1000000000000000]) = some (0x01, [1, 2, 3, 4, 5, 6]) := by decide

/-- V-C2, V-C3: the last position, and one past it. -/
theorem test_setcolor_last : seen (idleState 3 [1, 2, 3, 4, 5, 6, 7, 8, 9] [cmd 0x280A141E00020000]) =
    some (0x00, [1, 2, 3, 4, 5, 6, 20, 10, 30]) := by decide
theorem test_setcolor_past_last : seen (idleState 3 [1, 2, 3, 4, 5, 6, 7, 8, 9] [cmd 0x280A141E00030000]) =
    some (0x01, [1, 2, 3, 4, 5, 6, 7, 8, 9]) := by decide

/-- S8 and V-R1 on the eight-LED block after reset; V-R5. -/
theorem test_setrange_swapped : seen (State.reset.withFetchWord 64 0x380A141E00050002) =
    some (0x00, [0, 0, 0, 0, 0, 0, 20, 10, 30, 20, 10, 30, 20, 10, 30, 0, 0, 0, 0, 0, 0, 0, 0, 0]) := by decide
theorem test_setrange_degenerate : (seen (State.reset.withFetchWord 64 0x3801020300040004)).map Prod.fst = some 0x01 := by
  decide

/-- V-E1, cycle 1; V-E2. -/
theorem test_transmit_first_cycle : (next? (step (idleState 1 [0xA5, 0x00, 0xFF] [cmd 0x4800000000000000]))).map
    (fun t => (status t, dout t, t.byteIdx, t.bitIdx, t.cnt)) = some (0x0C, true, 0, 7, 2) := by decide
theorem test_transmit_nobuf : (next? (step (idleState 1 [0xA5, 0x00, 0xFF] [cmd 0x4000000000000000]))).map
    (fun t => (status t, dout t)) = some (0x01, false) := by decide

/-! ## One step of the sequencer and of reset -/

/-- V-E1: cycle 3 to 4, cycle 4 to 5, cycle 96 to 97, cycle 101 to 102. -/
theorem test_high_to_low : (next? (step (busyState .emitHigh 0 7 true 0 []))).map (fun t => (status t, t.cnt)) =
    some (0x14, 0) := by decide
theorem test_low_to_next_bit : (next? (step (busyState .emitLow 0 7 true 0 []))).map
    (fun t => (status t, t.byteIdx, t.bitIdx, t.cnt)) = some (0x0C, 0, 6, 0) := by decide
theorem test_low_to_gap : (next? (step (busyState .emitLow 2 0 true 0 []))).map (fun t => (status t, t.cnt)) =
    some (0x1C, 4) := by decide
theorem test_gap_to_idle : (next? (step (busyState .resetGap 2 0 true 0 []))).map (fun t => (status t, dout t)) =
    some (0x00, false) := by decide

/-- V-X3: RST = 1 and a CLEAR in one cycle. -/
theorem test_reset_beats_clear : seen (idleState 1 [1, 2, 3] [rstWith 0x1800000000000000]) = some (0x00, [1, 2, 3]) := by
  decide

/-- V-D1: the all-zero word is reserved, not a no-op. -/
theorem test_zero_word : seen (idleState 1 [1, 2, 3] [cmd 0]) = some (0x02, [1, 2, 3]) := by decide

/-- V-P2, V-P3. -/
theorem test_read_port : (readPort (idleState 3 [1, 2, 3, 4, 5, 6, 7, 8, 9] []) 8,
    readPort (idleState 3 [1, 2, 3, 4, 5, 6, 7, 8, 9] []) 9) = (9, 0) := by decide

/-- The frame cycles of the toy configuration, `96·N + 5`, and V-E5's frame of 4960 cycles. -/
theorem test_frame_cyc : (Config.toy 8).frameCyc = 773 ∧
    ({ n := 1, t0hCyc := 6, t0lCyc := 14, t1hCyc := 13, t1lCyc := 7, resetCyc := 4480 } : Config).frameCyc = 4960 := by
  decide

/-! ## The assembler (L-1's lines, R77, R78) -/

/-- `LEDOFF 1 ; c` -/
theorem test_assemble_ledoff : assemble ['L', 'E', 'D', 'O', 'F', 'F', ' ', '1', ' ', ';', ' ', 'c'] =
    some [0x2800000000010000] := by decide

/-- `SETCOLOR.nobuf 0xA, 20,30 ,1` -/
theorem test_assemble_setcolor : assemble (['S', 'E', 'T', 'C', 'O', 'L', 'O', 'R', '.', 'n', 'o', 'b', 'u', 'f'] ++
    [' ', '0', 'x', 'A', ',', ' ', '2', '0', ',', '3', '0', ' ', ',', '1']) = some [0x200A141E00010000] := by decide

/-- `LEDOFF 65536` is refused. -/
theorem test_assemble_refuses : assemble ['L', 'E', 'D', 'O', 'F', 'F', ' ', '6', '5', '5', '3', '6'] = none := by decide

/-! ## Witnesses: states and operands that meet the hypotheses of the statements -/

/-- The toy configuration is legal, and one with a zero phase is not. -/
theorem witness_legal : (Config.toy 1).Legal ∧ (Config.toy 8).Legal ∧ (Config.toy 21845).Legal ∧
    ¬ (Config.toy 0).Legal ∧ ¬ (Config.toy 21846).Legal :=
  ⟨by decide, by decide, by decide, by decide, by decide⟩

/-- DecodeOfEncodeIsTheCommand, IgnoredFieldsDoNotMatter, WordsOfTheCommands: a command with its operands at the bound, and
two words that differ in ignored fields only. -/
theorem witness_encoding : (Instr.setrange true 255 255 255 65535 65535).wf = true ∧
    decode 0x280102030000BEEF = .command (.setcolor true 1 2 3 0) ∧
    (0x2801020300000000 : CmdWord) &&& (Instr.setcolor true 1 2 3 0).readMask =
      0x280102030000BEEF &&& (Instr.setcolor true 1 2 3 0).readMask := by decide

/-- DecodeFollowsTheOpcodeMap: a word for each clause. -/
theorem witness_opcode_map : fieldRsv 0x1900000000000000 ≠ 0 ∧
    (fieldRsv 0x1800000000000000 = 0 ∧ fieldOp 0x1800000000000000 = 1) ∧
    (fieldRsv 0x2800000000000000 = 0 ∧ fieldOp 0x2800000000000000 = 2) ∧
    (fieldRsv 0x3800000000000000 = 0 ∧ fieldOp 0x3800000000000000 = 3) ∧
    (fieldRsv 0x4800000000000000 = 0 ∧ fieldOp 0x4800000000000000 = 4) ∧
    (fieldRsv 0xF800000000000000 = 0 ∧ fieldOp 0xF800000000000000 = 15) ∧
    decode 0xF800000000000000 = .reserved (.reservedOpcode 15) := by decide

/-- StepRunsTheAcceptedCommand: a command accepted, a reserved word accepted, an idle cycle with no command, a word to
present. -/
theorem witness_step_runs : (Takes (idleState 3 [] [cmd 0x2801020300000000]) (.setcolor true 1 2 3 0)) ∧
    (accepted (idleState 3 [] [cmd 0]) = true ∧
      decode (idleState 3 [] [cmd 0]).input.cmdWord = .reserved (.reservedOpcode 0)) ∧
    ((idleState 3 [] []).cfg.Legal ∧ (idleState 3 [] []).phase = .idle ∧ (idleState 3 [] []).input.rst = false ∧
      (idleState 3 [] []).input.cmdValid = false) ∧
    decode 0x4800000000000000 = .command (.transmit true) :=
  ⟨⟨by decide, by decide⟩, by decide, by decide, by decide⟩

/-- CausesOfRejection, RejectionWritesOnlyTheResult: each cause, on an accepted word, at the boundary of its range. -/
theorem witness_rejections :
    (idleState 3 [] [rstWith 0]).input.rst = true ∧
    accepted (idleState 3 [] [cmd 0x2801020300030000]) = true ∧
    fieldRsv (0x1900000000000000) ≠ 0 ∧ fieldOp 0x5800000000000000 ∉ [(1 : BitVec 4), 2, 3, 4] ∧
    commandResult (Config.toy 3) (decode 0x5800000000000000) = .invalidCmd ∧
    commandResult (Config.toy 3) (decode 0x1000000000000000) = .invalidArg ∧
    commandResult (Config.toy 3) (decode 0x4000000000000000) = .invalidArg ∧
    commandResult (Config.toy 3) (decode 0x2801020300030000) = .invalidArg ∧
    commandResult (Config.toy 3) (decode 0x3801020300030000) = .invalidArg ∧
    commandResult (Config.toy 3) (decode 0x3801020300000003) = .invalidArg ∧
    commandResult (Config.toy 3) (decode 0x3801020300010001) = .invalidArg ∧
    commandResult (Config.toy 3) (decode 0x3801020300000002) = .ok ∧
    commandResult (Config.toy 3) (decode 0x2801020300020000) = .ok := by decide

/-- ClearZeroesTheBuffer, SetcolorWritesOneTriplet, SetrangeWritesTheHalfOpenSpan, SetrangeEqualsItsSetcolors,
SetrangeIsOrderIndependent: a canonical buffer, operands in range and at the last position, operands out of range. -/
theorem witness_buffer_commands : (idleState 3 [1, 0, 3, 4] []).buf.wf ∧ (idleState 3 [] []).cfg.n = 3 ∧
    (2 < (Config.toy 3).n ∧ 0 < (Config.toy 3).n ∧ (0 : Nat) ≠ 2) ∧ (Config.toy 3).n ≤ 3 ∧
    isBufferCommand (.setrange true 1 2 3 0 2) = true := by decide

/-- SetrangeNeverWritesTheLastLed: blocks of one LED and of two. -/
theorem witness_last_led : (idleState 1 [9, 9, 9] []).buf.wf ∧ (idleState 1 [] []).cfg.n = 1 ∧
    2 ≤ (idleState 2 [] []).cfg.n := by decide

/-- AfterClearEveryAddressReadsZero: a CLEAR accepted, then a cycle with a rejected SETCOLOR. -/
theorem witness_after_clear :
    let s := idleState 1 [1, 2, 3] [cmd 0x1800000000000000, cmd 0x2001020300000000]
    s.cfg.Legal ∧ s.buf.wf ∧ Takes s (.clear true) ∧
      ∃ t u, step s = .next t ∧ After 1 t u ∧ Takes t (.setcolor false 1 2 3 0) ∧
        commandResult t.cfg (.command (.setcolor false 1 2 3 0)) ≠ .ok :=
  ⟨by decide, by decide, ⟨by decide, by decide⟩, _, _, rfl, rfl, ⟨by decide, by decide⟩, by decide⟩

/-- The frame statements (FrameWaveform, FrameIsBusyForFrameCyc, LineIsLowBetweenFrames, BufferIsFrozenDuringAFrame,
CommandTiming, TransmitStartsAFrame, FramesAreIndependent): V-E1's frame, with no reset at any later cycle. -/
theorem witness_frame :
    let s := idleState 1 [0xA5, 0x00, 0xFF] [cmd 0x4800000000000000]
    s.cfg.Legal ∧ Takes s (.transmit true) ∧ NoResetThrough s (s.cfg.frameCyc + 1) := by
  refine ⟨by decide, ⟨by decide, by decide⟩, fun j _ => ?_⟩
  cases j <;> rfl

/-- HeldCommandRunsAfterTheFrame: V-E4, the host holding SETCOLOR 1,2,3,0 through the frame. -/
theorem witness_held_command :
    let s := idleState 1 [0xA5, 0x00, 0xFF] (cmd 0x4800000000000000 :: List.replicate 102 (cmd 0x2801020300000000))
    s.cfg.Legal ∧ Takes s (.transmit true) ∧ NoResetThrough s (s.cfg.frameCyc + 1) ∧
      (s.inputAt (s.cfg.frameCyc + 1)).cmdValid = true ∧
      (s.inputAt (s.cfg.frameCyc + 1)).cmdWord = 0x2801020300000000 := by
  refine ⟨by decide, ⟨by decide, by decide⟩, fun j _ => ?_, by decide, by decide⟩
  cases j with
  | zero => rfl
  | succ j =>
    simp only [State.inputAt, idleState, State.resetOf_inputs, List.getElem?_cons_succ, List.getElem?_replicate]
    split_ifs <;> rfl

/-- EmitHighLastsItsHighTime, EveryBitTakesTBit: the first cycle of a 1 bit and of a 0 bit, and the last cycle of one. -/
theorem witness_emit_high :
    let s := busyState .emitHigh 0 7 true 2 []
    let z := busyState .emitHigh 2 0 false 0 []
    s.cfg.Legal ∧ s.phase = .emitHigh ∧ s.byteIdx.toNat < s.cfg.nbytes ∧ s.input.rst = false ∧
      s.cnt.toNat = s.cfg.highCyc s.cur - 1 ∧ 0 < s.cnt.toNat ∧ NoResetThrough s (s.cfg.tbit - 1) ∧
      z.cnt.toNat = z.cfg.highCyc z.cur - 1 ∧ z.cnt.toNat = 0 ∧
      lastBit z.cfg z.byteIdx.toNat z.bitIdx.toNat = true ∧ lastBit s.cfg s.byteIdx.toNat s.bitIdx.toNat = false :=
  ⟨by decide, rfl, by decide, rfl, by decide, by decide, fun _ _ => rfl, by decide, by decide, by decide, by decide⟩

/-- EmitLowLastsItsLowTime: a 0 bit's first low cycle, the last low cycle of the frame's last bit, and of an earlier one. -/
theorem witness_emit_low :
    let s := busyState .emitLow 0 6 false 2 []
    let z := busyState .emitLow 2 0 true 0 []
    let y := busyState .emitLow 1 0 false 0 []
    s.cfg.Legal ∧ s.phase = .emitLow ∧ s.byteIdx.toNat < s.cfg.nbytes ∧ s.input.rst = false ∧ 0 < s.cnt.toNat ∧
      s.cnt.toNat = s.cfg.lowCyc s.cur - 1 ∧ NoResetThrough s (s.cfg.lowCyc s.cur - 1) ∧
      (z.cnt.toNat = 0 ∧ lastBit z.cfg z.byteIdx.toNat z.bitIdx.toNat = true) ∧
      (y.cnt.toNat = 0 ∧ lastBit y.cfg y.byteIdx.toNat y.bitIdx.toNat = false ∧
        nextBit y.byteIdx.toNat y.bitIdx.toNat = (2, 7)) :=
  ⟨by decide, rfl, by decide, rfl, by decide, by decide, fun _ _ => rfl, by decide, by decide⟩

/-- ResetGapLastsResetCyc: the first and the last cycle of the gap. -/
theorem witness_reset_gap :
    let s := busyState .resetGap 2 0 true 4 []
    s.cfg.Legal ∧ s.phase = .resetGap ∧ s.input.rst = false ∧ 0 < s.cnt.toNat ∧
      s.cnt.toNat = s.cfg.resetCyc - 1 ∧ NoResetThrough s (s.cfg.resetCyc - 1) ∧
      (busyState .resetGap 2 0 true 0 []).cnt.toNat = 0 :=
  ⟨by decide, rfl, rfl, by decide, by decide, fun _ _ => rfl, by decide⟩

/-- BitOrderStaysInTheBuffer: the bit before the last byte, and the last bit. -/
theorem witness_bit_order : 1 < (Config.toy 1).nbytes ∧ lastBit (Config.toy 1) 1 0 = false ∧
    lastBit (Config.toy 1) 2 0 = true := by decide

/-- OnlyResetEndsAFrameEarly, ResetAbortsTheFrame, BlockResetSetsTheRegisters: a frame in which RST is asserted, and after
which a TRANSMIT is accepted at once; the gap's last cycle ends a frame without it. -/
theorem witness_abort :
    let s := busyState .emitHigh 0 7 true 1 [rstWith 0, cmd 0x4800000000000000]
    s.cfg.Legal ∧ busy s = true ∧ s.input.rst = true ∧
      (∃ t, step s = .next t ∧ Takes t (.transmit true) ∧ NoResetThrough t t.cfg.frameCyc) ∧
      ∃ t, step (busyState .resetGap 2 0 true 0 []) = .next t ∧ busy t = false := by
  refine ⟨by decide, by decide, rfl, ⟨_, rfl, ⟨by decide, by decide⟩, fun j _ => ?_⟩, _, rfl, by decide⟩
  cases j <;> rfl

/-- OnlyPerformedBufferCommandsWrite, ResultIsWrittenOnAcceptance, ParametersNeverChange: a step that changes the buffer,
and a step with nothing accepted. -/
theorem witness_write : (∃ t, step (idleState 1 [1, 2, 3] [cmd 0x1800000000000000]) = .next t ∧
      t.buf ≠ (idleState 1 [1, 2, 3] [cmd 0x1800000000000000]).buf) ∧
    (accepted (idleState 1 [1, 2, 3] []) = false ∧ (idleState 1 [1, 2, 3] []).input.rst = false ∧
      ∃ t, step (idleState 1 [1, 2, 3] []) = .next t) ∧
    (∃ t, exec (.clear true) (idleState 1 [1, 2, 3] []) = .next t) :=
  ⟨⟨_, rfl, by decide⟩, ⟨by decide, by decide, _, rfl⟩, _, rfl⟩

/-- CommandsAreTakenOnlyWhenReady: not ready for a frame, and for a reset. -/
theorem witness_not_ready : cmdReady (busyState .emitLow 0 7 true 0 [cmd 0]) = false ∧
    cmdReady (idleState 1 [] [rstWith 0]) = false := by decide

/-- CommandsTakeEffectInOrder, IdlePositionIsNotRead: a CLEAR and then a TRANSMIT in the next cycle. -/
theorem witness_in_order :
    let s := idleState 1 [1, 2, 3] [cmd 0x1800000000000000, cmd 0x4800000000000000]
    s.cfg.Legal ∧ s.phase = .idle ∧ Takes s (.clear true) ∧ isBufferCommand (.clear true) = true ∧
      (s.inputAt 1).rst = false ∧ (s.inputAt 1).cmdValid = true ∧
      decode (s.inputAt 1).cmdWord = .command (.transmit true) :=
  ⟨by decide, rfl, ⟨by decide, by decide⟩, rfl, rfl, rfl, by decide⟩

/-- StepKeepsTheInvariant, NoRunStops: the invariant holds in the middle of a frame, and the step answers a next state. -/
theorem witness_invariant : Inv (busyState .emitLow 0 6 false 2 []) ∧
    ∃ t, step (busyState .emitLow 0 6 false 2 []) = .next t :=
  ⟨⟨by decide, by decide, by decide, by simp only [busyState, PositionOk]; decide⟩, _, rfl⟩

/-- BitOutsideTheBufferFaults: a block of no LEDs, and a position past the buffer. -/
theorem witness_outside :
    let s := busyState .emitLow 3 7 false 0 []
    (idleState 0 [] []).cfg.n = 0 ∧ s.cfg.Legal ∧ s.input.rst = false ∧ s.phase = .emitLow ∧ s.cnt.toNat = 0 ∧
      lastBit s.cfg s.byteIdx.toNat s.bitIdx.toNat = false ∧
      s.cfg.nbytes ≤ (nextBit s.byteIdx.toNat s.bitIdx.toNat).1 := by decide

/-- IllegalConfigurationHasNoMachine: a block whose two bit periods differ. -/
theorem witness_illegal : ¬ ({ Config.toy 1 with t0lCyc := 4 } : Config).Legal := by decide

/-- ReadPortAnswersTheByte: the last offset of the buffer, and the first past it. -/
theorem witness_read_port : (8 : BitVec 16).toNat < (idleState 3 [] []).cfg.nbytes ∧
    (idleState 3 [] []).cfg.nbytes ≤ (9 : BitVec 16).toNat := by decide

/-- StateAfterReset, ResetMeetsTheInvariant: power-on contents of the buffer's length. -/
theorem witness_power_on : ([0x55, 0x55, 0x55] : List Byte).length = (Config.toy 1).nbytes ∧ (Config.toy 1).Legal := by
  decide

/-- CommandTiming: an accepted word that is no performed TRANSMIT. -/
theorem witness_timing : accepted (idleState 1 [] [cmd 0x4000000000000000]) = true ∧
    decode (idleState 1 [] [cmd 0x4000000000000000]).input.cmdWord ≠ .command (.transmit true) := by decide

/-- PseudoInstructionsExpand, AssemblerChecksItsOperands: operands at the bound, and past it. -/
theorem witness_assembler : (∃ ws, assembleLine (.ledoff 65535) = some ws) ∧
    assembleLine (.setcolor false 256 0 0 0) = none ∧ assembleLine (.setrange false 255 255 255 65535 65536) = none :=
  ⟨⟨_, rfl⟩, by decide, by decide⟩

end Sys2Proof.Tests
end

section
/-! The statements about the build parameters (00_scope.md R6, R7; 10_state.md R35): what a legal configuration is, which
steps are refused, and the period of a bit. -/

namespace Sys2Proof

/-! ## Legality (R6) -/

/-- R6 in the spec's own words: condition 2 is one bound on all five cycle parameters. -/
theorem Config.legal_iff {c : Config} :
    c.Legal ↔
      (1 ≤ c.n ∧ c.n ≤ 21845) ∧
      (∀ x ∈ [c.t0hCyc, c.t0lCyc, c.t1hCyc, c.t1lCyc, c.resetCyc], 1 ≤ x ∧ x ≤ 2 ^ 32 - 1) ∧
      c.t0hCyc + c.t0lCyc = c.t1hCyc + c.t1lCyc ∧ c.t1hCyc > c.t0hCyc := by
  have hmax : 2 ^ 32 - 1 = Config.maxCyc := by norm_num
  rw [hmax]
  simp only [Config.Legal, List.forall_mem_cons, List.not_mem_nil, false_implies, implies_true, and_true, gt_iff_lt]

/-- Equal bit periods and a longer high part of a 1 leave a 0 the longer low part. -/
theorem Config.Legal.t1lCyc_lt_t0lCyc {c : Config} (h : c.Legal) : c.t1lCyc < c.t0lCyc := by
  obtain ⟨-, -, hperiod, hhigh⟩ := h
  omega

/-! ## The bit period (R7, R35) -/

theorem Config.nbits_eq (c : Config) : c.nbits = 24 * c.n := by
  rw [Config.nbits, Config.nbytes, ← Nat.mul_assoc]

/-- Either value of a bit takes the whole bit period; for a 1 this is condition 3 of R6. -/
theorem Config.Legal.highCyc_add_lowCyc {c : Config} (h : c.Legal) (b : Bool) :
    c.highCyc b + c.lowCyc b = c.tbit := by
  obtain ⟨-, -, hperiod, -⟩ := h
  cases b
  case false => rfl
  case true => exact hperiod.symm

end Sys2Proof

namespace Sys2Proof.Machine

/-! ## Refusals: `illegalConfiguration` is the only one a step can give -/

theorem exec_ne_refused (i : Instr) (s : State) (r : Refusal) : exec i s ≠ .refused r := by
  cases i with
  | clear p => cases p <;> simp [exec, execClear_true, execClear_false]
  | setcolor p red green blue pos =>
    by_cases hv : setcolorArgsValid s.cfg p pos = true
    · simp [exec, execSetcolor_of_valid red green blue hv]
    · simp [exec, execSetcolor_of_invalid red green blue hv]
  | setrange p red green blue a e =>
    by_cases hv : setrangeArgsValid s.cfg p a e = true
    · simp [exec, execSetrange_of_valid red green blue hv]
    · simp [exec, execSetrange_of_invalid red green blue hv]
  | transmit p =>
    cases p
    case false => simp [exec, execTransmit_false]
    case true =>
      by_cases hn : 0 < s.cfg.nbytes
      · simp [exec, execTransmit_true hn]
      · simp [exec, execTransmit, State.bufBit?, hn]

theorem executeWord_ne_refused (w : CmdWord) (s : State) (r : Refusal) : executeWord w s ≠ .refused r := by
  rw [executeWord]
  cases decode w with
  | command i => exact exec_ne_refused i s r
  | reserved why => simp [reject_eq]

theorem stepLow_ne_refused (s : State) (r : Refusal) : stepLow s ≠ .refused r := by
  obtain ⟨-, h⟩ | ⟨-, -, h⟩ | ⟨-, -, nb, nk, -, ⟨-, h⟩ | ⟨-, h⟩⟩ := stepLow_cases s <;> simp [h]

theorem stepWith_ne_refused (inp : PortInput) (s : State) (r : Refusal) : stepWith inp s ≠ .refused r := by
  cases hr : inp.rst
  case true => simp [stepWith, hr]
  case false =>
    cases hp : s.phase with
    | idle =>
      cases hv : inp.cmdValid
      case false => simp [stepWith, hr, hp, hv]
      case true => simpa [stepWith, hr, hp, hv] using executeWord_ne_refused inp.cmdWord s r
    | emitHigh => simp [stepWith, hr, hp]
    | emitLow => simpa [stepWith, hr, hp] using stepLow_ne_refused s r
    | resetGap => simp [stepWith, hr, hp]

theorem step_of_illegal {s : State} (h : ¬ s.cfg.Legal) : step s = .refused .illegalConfiguration := if_neg h

theorem step_ne_refused_of_legal {s : State} (h : s.cfg.Legal) (r : Refusal) : step s ≠ .refused r := by
  rw [step_of_legal h]
  exact stepWith_ne_refused s.input s.nextCycle r

/-! ## The obligations -/

/-- Settles O39: whether a step is refused turns on the legality check alone, since nothing below it refuses. -/
theorem illegalConfigurationHasNoMachine : Obligations.IllegalConfigurationHasNoMachine := by
  unfold Obligations.IllegalConfigurationHasNoMachine
  intro c
  refine ⟨Config.legal_iff, Config.Legal.t1lCyc_lt_t0lCyc, ?_, ?_⟩
  · rintro hc s rfl
    exact step_of_illegal hc
  · rintro hc s rfl r
    exact step_ne_refused_of_legal hc r

/-- Settles O40: the values are the definitions of R7 and R35, and both pulse shapes total `TBIT` by condition 3 of R6. -/
theorem pulseShapesTotalTheBitPeriod : Obligations.PulseShapesTotalTheBitPeriod := by
  unfold Obligations.PulseShapesTotalTheBitPeriod
  intro c hc
  have htotal := hc.highCyc_add_lowCyc
  exact ⟨rfl, rfl, c.nbits_eq, rfl, (htotal true).symm, rfl, rfl, rfl, rfl, rfl, htotal⟩

end Sys2Proof.Machine
end

section
/-! The statements about the registers, the ports and the reset state (10_state.md R24 to R36). -/

namespace Sys2Proof.Machine

/-! ## Readiness and acceptance (R28) -/

theorem cmdReady_iff {s : State} : cmdReady s = true ↔ s.phase = .idle ∧ s.input.rst = false := by
  simp [cmdReady]

theorem accepted_iff {s : State} : accepted s = true ↔ s.input.cmdValid = true ∧ cmdReady s = true :=
  Bool.and_eq_true_iff

/-- The cycle that accepts a word executes it. -/
theorem step_of_accepted {s : State} (hl : s.cfg.Legal) (h : accepted s = true) :
    step s = executeWord s.input.cmdWord s.nextCycle := by
  obtain ⟨hv, hready⟩ := accepted_iff.mp h
  obtain ⟨hp, hr⟩ := cmdReady_iff.mp hready
  simp [step_of_legal hl, stepWith, hr, hp, hv]

/-- Outside IDLE, and in a reset, the step reads `RST` and no other input. -/
theorem stepWith_congr_of_not_ready {inp inp' : PortInput} {s : State} (hr : inp'.rst = inp.rst)
    (h : ¬ (s.phase = .idle ∧ inp.rst = false)) : stepWith inp' s = stepWith inp s := by
  unfold stepWith
  rw [hr]
  cases hrst : inp.rst
  case true => rfl
  case false =>
    cases hp : s.phase
    case idle => exact absurd ⟨hp, hrst⟩ h
    all_goals rfl

/-- While `CMD_READY = 0`, other inputs with the same `RST` in this cycle give the same step. -/
theorem step_withInput_of_not_ready {s : State} (h : cmdReady s = false) {inp : PortInput}
    (hr : inp.rst = s.input.rst) : step { s with inputs := inp :: s.inputs.tail } = step s := by
  have hnot : ¬ (s.nextCycle.phase = .idle ∧ s.input.rst = false) := by simpa [cmdReady] using h
  exact if_congr Iff.rfl (stepWith_congr_of_not_ready hr hnot) rfl

/-- Settles O32: a block that is not ready reads `RST` alone; `RD_ADDR` is read by no step, so that clause is by
computation. -/
theorem commandsAreTakenOnlyWhenReady : Obligations.CommandsAreTakenOnlyWhenReady := by
  unfold Obligations.CommandsAreTakenOnlyWhenReady
  intro s
  refine ⟨cmdReady_iff, accepted_iff, fun hready => ⟨by rw [accepted, hready, Bool.and_false], ?_⟩, fun _ => rfl⟩
  intro valid w
  exact step_withInput_of_not_ready hready (inp := { s.input with cmdValid := valid, cmdWord := w }) rfl

/-! ## RESULT (R31) -/

/-- A command that answers a next state reports the outcome of its row of 60_exceptions.md R171. -/
theorem exec_result {i : Instr} {s t : State} (h : exec i s = .next t) :
    t.result = commandResult s.cfg (.command i) := by
  obtain ⟨hres, rfl⟩ | ⟨-, hres, m, rfl, -, -⟩ | ⟨rfl, -, rfl⟩ := exec_cases h
  · exact hres.symm
  · exact hres.symm
  · rfl

theorem executeWord_result {w : CmdWord} {s t : State} (h : executeWord w s = .next t) :
    t.result = commandResult s.cfg (decode w) := by
  rw [executeWord] at h
  cases hd : decode w with
  | command i =>
    rw [hd] at h
    exact exec_result h
  | reserved why =>
    rw [hd] at h
    cases h
    rfl

theorem step_result_of_accepted {s t : State} (h : step s = .next t) (hacc : accepted s = true) :
    t.result = commandResult s.cfg (decode s.input.cmdWord) := by
  obtain ⟨hl, -⟩ := step_cases h
  rw [step_of_accepted hl hacc] at h
  exact executeWord_result (s := s.nextCycle) h

theorem step_result_of_rst {s t : State} (h : step s = .next t) (hr : s.input.rst = true) : t.result = .ok := by
  obtain ⟨hl, -⟩ := step_cases h
  rw [step_of_rst hl hr] at h
  cases h
  rfl

/-- A cycle with no command accepted and no reset waits in IDLE or steps the sequencer; neither writes `RESULT`. -/
theorem step_keeps_result {s t : State} (h : step s = .next t) (hacc : accepted s = false) (hr : s.input.rst = false) :
    t.result = s.result := by
  obtain ⟨-, ⟨hr', -⟩ | ⟨-, ⟨hp, ⟨-, rfl⟩ | ⟨hv, -⟩⟩ | ⟨-, rfl⟩ | ⟨-, hlow⟩ | ⟨-, rfl⟩⟩⟩ := step_cases h
  · exact absurd hr' (by simp [hr])
  · rfl
  · exact absurd (accepted_iff.mpr ⟨hv, cmdReady_iff.mpr ⟨hp, hr⟩⟩) (by simp [hacc])
  · exact (stepHigh_keeps _).2.2.2
  · exact (stepLow_keeps hlow).2.2.2
  · exact (stepGap_keeps _).2.2.2

/-- Settles O31: the three kinds of cycle, accepting, resetting and neither, one lemma each. -/
theorem resultIsWrittenOnAcceptance : Obligations.ResultIsWrittenOnAcceptance := by
  unfold Obligations.ResultIsWrittenOnAcceptance
  exact fun _ _ h => ⟨step_result_of_accepted h, step_result_of_rst h, step_keeps_result h⟩

/-! ## The parameters (R34) -/

theorem After.keeps_cfg {k : Nat} {s t : State} (h : After k s t) : t.cfg = s.cfg := by
  induction k generalizing s with
  | zero => exact congrArg State.cfg (h.unique (.zero s))
  | succ k ih =>
    obtain ⟨u, hsu, hut⟩ := h.succ_cases
    exact (ih hut).trans (step_keeps_cfg_moves_inputs hsu).1

/-- Settles O35: no command writes `cfg`, no step does, and so no run does. -/
theorem parametersNeverChange : Obligations.ParametersNeverChange := by
  unfold Obligations.ParametersNeverChange
  exact ⟨fun _ _ _ h => (exec_keeps_cfg_inputs h).1, fun _ _ _ h => h.keeps_cfg⟩

/-! ## STATUS, BUSY and DOUT (R24, R27, R29, R30, R32) -/

theorem busy_iff {s : State} : busy s = true ↔ s.phase ≠ .idle := by simp [busy]

theorem dout_iff {s : State} : dout s = true ↔ s.phase = .emitHigh := by simp [dout]

section
variable (s : State)

theorem status_result : (status s).extractLsb' 0 2 = s.result.code := by
  rw [status, BitVec.extractLsb'_append_eq_right]

theorem status_busy : (status s).extractLsb' 2 1 = BitVec.ofBool (busy s) := by
  rw [status, BitVec.extractLsb'_append_eq_of_le (by omega), BitVec.extractLsb'_append_eq_right]

theorem status_phase : (status s).extractLsb' 3 2 = s.phase.code := by
  rw [status, BitVec.extractLsb'_append_eq_of_le (by omega), BitVec.extractLsb'_append_eq_of_le (by omega),
    BitVec.extractLsb'_append_eq_right]

theorem status_top : (status s).extractLsb' 5 3 = 0 := by
  rw [status, BitVec.extractLsb'_append_eq_of_le (by omega), BitVec.extractLsb'_append_eq_of_le (by omega),
    BitVec.extractLsb'_append_eq_left]

end

/-- An idle block whose last command was performed shows 0x00. -/
theorem status_of_idle_ok {s : State} (hp : s.phase = .idle) (hr : s.result = .ok) : status s = 0x00 := by
  rw [status, busy, hp, hr]
  decide

theorem ResultCode.code_ne_three (r : ResultCode) : r.code ≠ 3 := by
  cases r <;> decide

/-- Settles O41: the four fields are the four parts `STATUS` is put together from. -/
theorem statusByteLayout : Obligations.StatusByteLayout := by
  unfold Obligations.StatusByteLayout
  intro s
  refine ⟨status_result s, status_busy s, status_phase s, status_top s, busy_iff, ?_, ?_, ?_, s.result.code_ne_three⟩
  all_goals intro h; rw [h]; rfl

/-- Settles O42: `DOUT` is a test of `PHASE` and reads no input. -/
theorem lineIsHighOnlyInEmitHigh : Obligations.LineIsHighOnlyInEmitHigh := by
  unfold Obligations.LineIsHighOnlyInEmitHigh
  exact ⟨rfl, rfl, rfl, rfl, fun _ _ => ⟨dout_iff, rfl⟩⟩

/-! ## The read port (R33) -/

theorem readPort_of_lt {s : State} {addr : BitVec 16} (h : addr.toNat < s.cfg.nbytes) :
    readPort s addr = s.buf.readByte addr.toNat := if_pos h

theorem readPort_of_ge {s : State} {addr : BitVec 16} (h : s.cfg.nbytes ≤ addr.toNat) : readPort s addr = 0x00 :=
  if_neg (not_lt.mpr h)

/-- Settles O43: the port answers by the address alone on either side of NBYTES, from the parameters and the buffer. -/
theorem readPortAnswersTheByte : Obligations.ReadPortAnswersTheByte := by
  unfold Obligations.ReadPortAnswersTheByte
  exact fun _ _ => ⟨readPort_of_lt, readPort_of_ge, rfl, fun _ _ => rfl⟩

/-! ## The state after reset (R36) -/

/-- The power-on contents read back, offset by offset, when they fill the buffer. -/
theorem readByte_ofBytes_of_length {nbytes : Nat} {bytes : List Byte} (hlen : bytes.length = nbytes) {i : Nat}
    (hi : i < nbytes) : some ((Memory.ofBytes nbytes bytes).readByte i) = bytes[i]? := by
  have hi' : i < bytes.length := hlen ▸ hi
  rw [Memory.readByte_ofBytes, if_pos hi, List.getElem?_eq_getElem hi', Option.getD_some]

theorem blockReset_eq (s : State) :
    blockReset s = { s with phase := .idle, byteIdx := 0, bitIdx := 0, cur := false, cnt := 0, result := .ok } := rfl

/-- Settles O45: the registers by computation, the buffer by reading back the bytes it was made of. -/
theorem stateAfterReset : Obligations.StateAfterReset := by
  unfold Obligations.StateAfterReset
  rintro c bufInit ins hlen s rfl
  refine ⟨rfl, rfl, rfl, rfl, rfl, rfl, fun _ hi => readByte_ofBytes_of_length hlen hi, rfl, rfl, ?_,
    fun hr => cmdReady_iff.mpr ⟨rfl, hr⟩, blockReset_eq⟩
  exact status_of_idle_ok rfl rfl

end Sys2Proof.Machine
end

section
/-! How the line goes through a frame (41_encoder.md R130 to R137), and that nothing but the parameters and the buffer shapes
it (10_state.md R38). -/

namespace Sys2Proof.Machine

/-! ## Cycles without a reset -/

theorem NoResetThrough.input_rst {s : State} {k : Nat} (h : NoResetThrough s k) : s.input.rst = false := by
  rw [State.input_eq_inputAt_zero]
  exact h 0 (Nat.zero_le k)

theorem NoResetThrough.of_step {s t : State} {k : Nat} (h : NoResetThrough s (k + 1)) (hs : step s = .next t) :
    NoResetThrough t k := by
  intro j hj
  rw [(After.one hs).inputAt]
  exact h (1 + j) (by omega)

/-! ## What the line sends, up to a reset -/

/-- From `s` on the line takes the values `line`, one a cycle beginning with this one, and then `P` holds; a reset in one of
these cycles releases the block from the rest. -/
def Sends : List Bool → (State → Prop) → State → Prop
  | [], P, s => P s
  | v :: line, P, s => dout s = v ∧ (s.input.rst = false → ∃ t, step s = .next t ∧ Sends line P t)

theorem Sends.append {line line' : List Bool} {P Q : State → Prop} {s : State} (h : Sends line P s)
    (hPQ : ∀ t, P t → Sends line' Q t) : Sends (line ++ line') Q s := by
  induction line generalizing s with
  | nil => exact hPQ s h
  | cons v line ih =>
    obtain ⟨hv, hnext⟩ := h
    refine ⟨hv, fun hr => ?_⟩
    obtain ⟨t, hst, ht⟩ := hnext hr
    exact ⟨t, hst, ih ht⟩

/-- What the line sends from the next cycle on is the trace seen from this one. -/
theorem Sends.doutTrace_eq {line : List Bool} {P : State → Prop} {s t : State} (h : Sends line P t)
    (hst : step s = .next t) (hr : NoResetThrough s line.length) : doutTrace line.length s = some line := by
  induction line generalizing s t with
  | nil => rfl
  | cons v line ih =>
    obtain ⟨hv, hnext⟩ := h
    have hrt := hr.of_step hst
    obtain ⟨u, htu, hu⟩ := hnext hrt.input_rst
    have htrace := ih hu htu hrt
    simp [doutTrace, hst, htrace, hv]

/-! ## The sequencer's place in a frame -/

/-- The sequencer is in phase `p` of bit `n` of a frame that sends the contents `m` on a block of configuration `c`, with `k`
cycles of the phase to come after this one. The reset gap counts to the last bit. -/
structure InFrame (c : Config) (m : Memory) (n : Nat) (p : Phase) (k : Nat) (s : State) : Prop where
  legal : c.Legal
  bit_lt : n < c.nbits
  cfg_eq : s.cfg = c
  buf_eq : s.buf = m
  phase_eq : s.phase = p
  byteIdx_eq : s.byteIdx.toNat = n / 8
  bitIdx_eq : s.bitIdx.toNat = 7 - n % 8
  cur_eq : s.cur = frameBit m n
  cnt_eq : s.cnt.toNat = k

/-- `Next` (R134) leads from the place of bit `n` to that of bit `n + 1`. -/
theorem nextBit_frame (n : Nat) : nextBit (n / 8) (7 - n % 8) = ((n + 1) / 8, 7 - (n + 1) % 8) := by
  unfold nextBit
  split_ifs <;> ext <;> simp only <;> omega

/-- `LastBit` (R136) holds at the place of bit `NBITS − 1` alone. -/
theorem lastBit_frame {c : Config} {n : Nat} (h : n < c.nbits) :
    lastBit c (n / 8) (7 - n % 8) = true ↔ n + 1 = c.nbits := by
  rw [lastBit_eq_true]
  rw [Config.nbits] at h ⊢
  omega

theorem State.setCnt_cnt_toNat {s : State} {k : Nat} (h : k < 2 ^ 32) : (s.setCnt k).cnt.toNat = k := by
  rw [State.setCnt_cnt, BitVec.toNat_ofNat, Nat.mod_eq_of_lt h]

section
variable {c : Config} {m : Memory} {n k : Nat} {p : Phase} {s : State}

theorem InFrame.step_legal (h : InFrame c m n p k s) : s.cfg.Legal := h.cfg_eq ▸ h.legal

theorem InFrame.dout_eq (h : InFrame c m n p k s) : dout s = (p == .emitHigh) := by rw [dout, h.phase_eq]

theorem InFrame.not_cnt_pos (h : InFrame c m n p 0 s) : ¬ 0 < s.nextCycle.cnt.toNat := by simp [h.cnt_eq]

theorem InFrame.lastBit_iff (h : InFrame c m n p k s) :
    lastBit s.nextCycle.cfg s.nextCycle.byteIdx.toNat s.nextCycle.bitIdx.toNat = true ↔ n + 1 = c.nbits := by
  rw [State.nextCycle_cfg, State.nextCycle_byteIdx, State.nextCycle_bitIdx, h.cfg_eq, h.byteIdx_eq, h.bitIdx_eq]
  exact lastBit_frame h.bit_lt

/-- While `CNT > 0`, a cycle of a frame counts down. -/
theorem InFrame.step_of_pos (h : InFrame c m n p (k + 1) s) (hp : p ≠ .idle) (hr : s.input.rst = false) :
    ∃ t, step s = .next t ∧ InFrame c m n p k t := by
  have hpos : 0 < s.nextCycle.cnt.toNat := by simp [h.cnt_eq]
  have hstep : step s = .next (countDown s.nextCycle) := by
    cases p with
    | idle => exact absurd rfl hp
    | emitHigh => rw [step_of_emitHigh h.step_legal hr h.phase_eq, stepHigh, if_pos hpos]
    | emitLow => rw [step_of_emitLow h.step_legal hr h.phase_eq, stepLow, if_pos hpos]
    | resetGap => rw [step_of_resetGap h.step_legal hr h.phase_eq, stepGap, if_pos hpos]
  have hk : s.nextCycle.cnt.toNat - 1 = k := by simp [h.cnt_eq]
  have hlt : k < 2 ^ 32 := by
    have := s.cnt.isLt
    rw [h.cnt_eq] at this
    omega
  rw [countDown_eq, hk] at hstep
  exact ⟨_, hstep, { h with cnt_eq := State.setCnt_cnt_toNat hlt }⟩

/-- A phase entered with `CNT = len − 1` holds the line for `len` cycles; `Q` is what its last cycle leads to. -/
theorem InFrame.sends_phase {len : Nat} {Q : State → Prop} (hlen : 0 < len) (hp : p ≠ .idle)
    (hlast : ∀ t, InFrame c m n p 0 t → t.input.rst = false → ∃ u, step t = .next u ∧ Q u)
    (h : InFrame c m n p (len - 1) s) : Sends (List.replicate len (p == .emitHigh)) Q s := by
  obtain ⟨k, rfl⟩ : ∃ k, len = k + 1 := ⟨len - 1, by omega⟩
  rw [Nat.add_sub_cancel] at h
  clear hlen
  induction k generalizing s with
  | zero => exact ⟨h.dout_eq, hlast s h⟩
  | succ k ih =>
    refine ⟨h.dout_eq, fun hr => ?_⟩
    obtain ⟨t, hst, ht⟩ := h.step_of_pos hp hr
    exact ⟨t, hst, ih ht⟩

/-! ## The last cycle of each phase -/

/-- R132: the high part of a bit is followed by its low part. -/
theorem InFrame.step_high_last (h : InFrame c m n .emitHigh 0 s) (hr : s.input.rst = false) :
    ∃ t, step s = .next t ∧ InFrame c m n .emitLow (c.lowCyc (frameBit m n) - 1) t := by
  refine ⟨_, by rw [step_of_emitHigh h.step_legal hr h.phase_eq, stepHigh, if_neg h.not_cnt_pos], ?_⟩
  have hlt := h.legal.lowCyc_lt (frameBit m n)
  refine { h with phase_eq := rfl, cnt_eq := ?_ }
  rw [State.nextCycle_cfg, State.nextCycle_cur, h.cfg_eq, h.cur_eq]
  exact State.setCnt_cnt_toNat (by omega)

/-- R133, before the last bit: the next bit's high part follows. -/
theorem InFrame.step_low_next (hn : n + 1 < c.nbits) (h : InFrame c m n .emitLow 0 s) (hr : s.input.rst = false) :
    ∃ t, step s = .next t ∧ InFrame c m (n + 1) .emitHigh (c.highCyc (frameBit m (n + 1)) - 1) t := by
  have hbyte : (n + 1) / 8 < c.nbytes := by
    rw [Config.nbits] at hn
    omega
  have hnext : nextBit s.nextCycle.byteIdx.toNat s.nextCycle.bitIdx.toNat = ((n + 1) / 8, 7 - (n + 1) % 8) := by
    rw [State.nextCycle_byteIdx, State.nextCycle_bitIdx, h.byteIdx_eq, h.bitIdx_eq, nextBit_frame]
  rw [step_of_emitLow h.step_legal hr h.phase_eq]
  obtain ⟨hpos, -⟩ | ⟨-, hl, -⟩ | ⟨-, -, nb, nk, hnb, hcase⟩ := stepLow_cases s.nextCycle
  · exact absurd hpos h.not_cnt_pos
  · have := h.lastBit_iff.mp hl
    omega
  · obtain ⟨rfl, rfl⟩ : (n + 1) / 8 = nb ∧ 7 - (n + 1) % 8 = nk := by rw [hnext] at hnb; exact Prod.mk.inj hnb
    obtain ⟨-, hstep⟩ | ⟨hout, -⟩ := hcase
    · have hval : (s.nextCycle.buf.readByte ((n + 1) / 8)).getLsbD (7 - (n + 1) % 8) = frameBit m (n + 1) := by
        rw [State.nextCycle_buf, h.buf_eq, frameBit]
      rw [hval] at hstep
      have hlt := h.legal.highCyc_lt (frameBit m (n + 1))
      have hfit := h.legal.nbytes_lt
      exact ⟨_, hstep,
        { legal := h.legal, bit_lt := hn, cfg_eq := h.cfg_eq, buf_eq := h.buf_eq, phase_eq := rfl, cur_eq := rfl
          byteIdx_eq := by rw [startBit_byteIdx, BitVec.toNat_ofNat]; omega
          bitIdx_eq := by rw [startBit_bitIdx, BitVec.toNat_ofNat]; omega
          cnt_eq := by rw [startBit_cnt, State.nextCycle_cfg, h.cfg_eq, BitVec.toNat_ofNat]; omega }⟩
    · rw [State.nextCycle_cfg, h.cfg_eq] at hout
      omega

/-- R133, at the last bit: the reset gap follows. -/
theorem InFrame.step_low_last (hn : n + 1 = c.nbits) (h : InFrame c m n .emitLow 0 s) (hr : s.input.rst = false) :
    ∃ t, step s = .next t ∧ InFrame c m n .resetGap (c.resetCyc - 1) t := by
  have hlast := h.lastBit_iff.mpr hn
  refine ⟨_, by rw [step_of_emitLow h.step_legal hr h.phase_eq, stepLow, if_neg h.not_cnt_pos, if_pos hlast], ?_⟩
  have hlt := h.legal.resetCyc_lt
  refine { h with phase_eq := rfl, cnt_eq := ?_ }
  rw [State.nextCycle_cfg, h.cfg_eq]
  exact State.setCnt_cnt_toNat (by omega)

/-- R135: the reset gap is followed by IDLE. -/
theorem InFrame.step_gap_last (h : InFrame c m n .resetGap 0 s) (hr : s.input.rst = false) :
    ∃ t, step s = .next t ∧ t.phase = .idle :=
  ⟨_, by rw [step_of_resetGap h.step_legal hr h.phase_eq, stepGap, if_neg h.not_cnt_pos], rfl⟩

/-! ## A bit, all bits, and the whole frame (R137) -/

/-- A bit sends its shape; `Q` is what the last cycle of its low part leads to. -/
theorem InFrame.sends_bit {Q : State → Prop}
    (hlast : ∀ t, InFrame c m n .emitLow 0 t → t.input.rst = false → ∃ u, step t = .next u ∧ Q u)
    (h : InFrame c m n .emitHigh (c.highCyc (frameBit m n) - 1) s) : Sends (bitShape c (frameBit m n)) Q s := by
  have hhigh := h.sends_phase (h.legal.highCyc_pos _) (by simp) (fun t ht => ht.step_high_last)
  exact hhigh.append fun t ht => ht.sends_phase (ht.legal.lowCyc_pos _) (by simp) hlast

/-- The last `d + 1` bits of a frame, one after another. -/
theorem InFrame.sends_bits {d : Nat} (hd : n + d + 1 = c.nbits)
    (h : InFrame c m n .emitHigh (c.highCyc (frameBit m n) - 1) s) :
    Sends ((List.range' n (d + 1)).flatMap fun i => bitShape c (frameBit m i))
      (InFrame c m (c.nbits - 1) .resetGap (c.resetCyc - 1)) s := by
  induction d generalizing n s with
  | zero =>
    obtain rfl : n = c.nbits - 1 := by omega
    simpa using h.sends_bit (fun t ht => ht.step_low_last (by omega))
  | succ d ih =>
    rw [List.range'_succ, List.flatMap_cons]
    exact (h.sends_bit (fun t ht => ht.step_low_next (by omega))).append fun t ht => ih (by omega) ht

/-- From the first cycle of bit 0 the line sends the waveform of the buffer, and the block is idle after it. -/
theorem InFrame.sends_waveform (h : InFrame c m 0 .emitHigh (c.highCyc (frameBit m 0) - 1) s) :
    Sends (waveform c m) (fun t => t.phase = .idle) s := by
  have hpos := h.bit_lt
  have hbits := h.sends_bits (d := c.nbits - 1) (by omega)
  rw [Nat.sub_add_cancel hpos, ← List.range_eq_range'] at hbits
  exact hbits.append fun t ht => ht.sends_phase ht.legal.resetCyc_pos (by simp) (fun u hu => hu.step_gap_last)

end

/-! ## TRANSMIT starts the frame (R130) -/

/-- The cycle that accepts a command executes it. -/
theorem step_of_takes {s : State} {i : Instr} (hl : s.cfg.Legal) (h : Takes s i) : step s = exec i s.nextCycle := by
  obtain ⟨hacc, hdec⟩ := h
  simp only [step_of_accepted hl hacc, executeWord, hdec]

theorem step_of_transmit {s : State} (hl : s.cfg.Legal) (h : Takes s (.transmit true)) :
    step s = .next ((startBit 0 7 (frameBit s.buf 0) s.nextCycle).setResult .ok) := by
  have hpos : 0 < s.nextCycle.cfg.nbytes := hl.nbytes_pos
  rw [step_of_takes hl h, exec, execTransmit_true hpos]
  rfl

theorem inFrame_startBit {s : State} (hl : s.cfg.Legal) :
    InFrame s.cfg s.buf 0 .emitHigh (s.cfg.highCyc (frameBit s.buf 0) - 1)
      ((startBit 0 7 (frameBit s.buf 0) s.nextCycle).setResult .ok) := by
  have hpos := hl.nbytes_pos
  have hlt := hl.highCyc_lt (frameBit s.buf 0)
  exact
    { legal := hl, cfg_eq := rfl, buf_eq := rfl, phase_eq := rfl, byteIdx_eq := rfl, bitIdx_eq := rfl, cur_eq := rfl
      bit_lt := by rw [Config.nbits]; omega
      cnt_eq := by rw [State.setResult_cnt, startBit_cnt, State.nextCycle_cfg, BitVec.toNat_ofNat]; omega }

/-! ## The waveform as a function of the parameters and the buffer -/

theorem Config.Legal.bitShape_length {c : Config} (h : c.Legal) (b : Bool) : (bitShape c b).length = c.tbit := by
  simp [bitShape, h.highCyc_add_lowCyc b]

theorem waveform_length {c : Config} (h : c.Legal) (m : Memory) : (waveform c m).length = c.frameCyc := by
  simp [waveform, Config.frameCyc, List.length_flatMap, Config.Legal.bitShape_length h]

theorem frameBit_congr {c : Config} {m m' : Memory} (h : ∀ a, a < c.nbytes → m'.readByte a = m.readByte a) {n : Nat}
    (hn : n < c.nbits) : frameBit m' n = frameBit m n := by
  rw [Config.nbits] at hn
  rw [frameBit, frameBit, h (n / 8) (by omega)]

theorem waveform_congr {c : Config} {m m' : Memory} (h : ∀ a, a < c.nbytes → m'.readByte a = m.readByte a) :
    waveform c m' = waveform c m := by
  have hbits : (List.range c.nbits).flatMap (fun n => bitShape c (frameBit m' n)) =
      (List.range c.nbits).flatMap (fun n => bitShape c (frameBit m n)) :=
    List.flatMap_congr fun n hn => by rw [frameBit_congr h (List.mem_range.mp hn)]
  rw [waveform, hbits, waveform]

/-- R137: a frame that no reset cuts short sends the waveform of the buffer. -/
theorem doutTrace_of_transmit {s : State} (hl : s.cfg.Legal) (h : Takes s (.transmit true))
    (hr : NoResetThrough s s.cfg.frameCyc) : doutTrace s.cfg.frameCyc s = some (waveform s.cfg s.buf) := by
  rw [← waveform_length hl s.buf] at hr ⊢
  exact (inFrame_startBit hl).sends_waveform.doutTrace_eq (step_of_transmit hl h) hr

/-- Settles O28: each frame's line is the waveform of its own configuration and buffer, and that is a function of the
configuration and of the bytes below NBYTES. -/
theorem framesAreIndependent : Obligations.FramesAreIndependent := by
  unfold Obligations.FramesAreIndependent
  intro s s' hl hcfg hbuf htakes htakes' hr hr'
  have hl' : s'.cfg.Legal := hcfg ▸ hl
  have hfirst : frameBit s'.buf 0 = frameBit s.buf 0 := frameBit_congr hbuf (inFrame_startBit hl).bit_lt
  refine ⟨⟨_, _, step_of_transmit hl htakes, step_of_transmit hl' htakes', rfl, rfl, rfl, hfirst, ?_⟩, ?_, ?_⟩
  · simp [hcfg, hfirst]
  · rw [doutTrace_of_transmit hl' htakes' hr', doutTrace_of_transmit hl htakes hr, hcfg, waveform_congr hbuf]
  · rw [doutTrace_of_transmit hl htakes hr, Option.isSome_some]

end Sys2Proof.Machine
end

section
/-! That the buffer stands still while a frame is sent (20_memory.md R62): which cycles leave the buffer alone, and where the
sequencer is in every cycle of a frame. -/

namespace Sys2Proof.Machine

/-! ## Cycles that leave the buffer alone (R52) -/

theorem accepted_of_busy {s : State} (h : busy s = true) : accepted s = false := by
  have hready : ¬ cmdReady s = true := fun hready => busy_iff.mp h (cmdReady_iff.mp hready).1
  rw [accepted, Bool.eq_false_iff.mpr hready, Bool.and_false]

/-- A cycle with no command accepted resets, waits in IDLE or steps the sequencer; none of them writes the buffer. -/
theorem step_keeps_buf {s t : State} (h : step s = .next t) (hacc : accepted s = false) : t.buf = s.buf := by
  obtain ⟨-, ⟨-, rfl⟩ | ⟨hr, ⟨hp, ⟨-, rfl⟩ | ⟨hv, -⟩⟩ | ⟨-, rfl⟩ | ⟨-, hlow⟩ | ⟨-, rfl⟩⟩⟩ := step_cases h
  · rfl
  · rfl
  · exact absurd (accepted_iff.mpr ⟨hv, cmdReady_iff.mpr ⟨hp, hr⟩⟩) (by simp [hacc])
  · exact (stepHigh_keeps _).2.2.1
  · exact (stepLow_keeps hlow).2.2.1
  · exact (stepGap_keeps _).2.2.1

/-! ## Runs -/

/-- A run put together from its first cycle and the rest. -/
theorem After.of_step {k : Nat} {s t u : State} (h : step s = .next t) (h' : After k t u) : After (k + 1) s u :=
  (runCycles_succ_of_next h k).trans h'

/-! ## How much of a frame is left -/

/-- The cycles of a frame that come after this one, when the sequencer is in phase `p` of bit `n` with `k` cycles of the phase
to come: the rest of the bit, the bits after it, and the reset gap. -/
def cyclesLeft (c : Config) (m : Memory) (n : Nat) : Phase → Nat → Nat
  | .idle, _ => 0
  | .emitHigh, k => k + c.lowCyc (frameBit m n) + (c.nbits - 1 - n) * c.tbit + c.resetCyc
  | .emitLow, k => k + (c.nbits - 1 - n) * c.tbit + c.resetCyc
  | .resetGap, k => k

theorem cyclesLeft_succ (c : Config) (m : Memory) (n : Nat) {p : Phase} (hp : p ≠ .idle) (k : Nat) :
    cyclesLeft c m n p (k + 1) = cyclesLeft c m n p k + 1 := by
  cases p with
  | idle => exact absurd rfl hp
  | emitHigh => simp only [cyclesLeft]; omega
  | emitLow => simp only [cyclesLeft]; omega
  | resetGap => rfl

/-- At the first cycle of bit `n`, that bit and all after it are left, less this cycle. -/
theorem cyclesLeft_bit_start {c : Config} (hl : c.Legal) (m : Memory) {n : Nat} (hn : n < c.nbits) :
    cyclesLeft c m n .emitHigh (c.highCyc (frameBit m n) - 1) + 1 = (c.nbits - n) * c.tbit + c.resetCyc := by
  have hpos := hl.highCyc_pos (frameBit m n)
  have hbit := hl.highCyc_add_lowCyc (frameBit m n)
  have hrest : (c.nbits - n) * c.tbit = (c.nbits - 1 - n) * c.tbit + c.tbit := by
    rw [← Nat.succ_mul]
    congr 1
    omega
  simp only [cyclesLeft]
  omega

/-- The block is in a frame that sends the contents `m` on a block of configuration `c`, with `j` cycles of the frame to come
after this one. -/
def FrameLeft (c : Config) (m : Memory) (j : Nat) (s : State) : Prop :=
  ∃ n p k, InFrame c m n p k s ∧ p ≠ .idle ∧ cyclesLeft c m n p k = j

section
variable {c : Config} {m : Memory} {j : Nat} {s : State}

theorem FrameLeft.buf_eq (h : FrameLeft c m j s) : s.buf = m := by
  obtain ⟨n, p, k, hs, -, -⟩ := h
  exact hs.buf_eq

/-- The last cycle of a phase leads to the phase that follows in the frame. -/
theorem InFrame.step_last {n : Nat} {p : Phase} (h : InFrame c m n p 0 s) (hp : p ≠ .idle)
    (hj : cyclesLeft c m n p 0 = j + 1) (hr : s.input.rst = false) :
    ∃ t, step s = .next t ∧ FrameLeft c m j t := by
  cases p with
  | idle => exact absurd rfl hp
  | emitHigh =>
    obtain ⟨t, hst, ht⟩ := h.step_high_last hr
    refine ⟨t, hst, n, _, _, ht, by simp, ?_⟩
    have hpos := h.legal.lowCyc_pos (frameBit m n)
    simp only [cyclesLeft] at hj ⊢
    omega
  | emitLow =>
    obtain hn | hn : n + 1 < c.nbits ∨ n + 1 = c.nbits := Nat.lt_or_eq_of_le h.bit_lt
    · obtain ⟨t, hst, ht⟩ := h.step_low_next hn hr
      refine ⟨t, hst, n + 1, _, _, ht, by simp, ?_⟩
      have hstart := cyclesLeft_bit_start h.legal m hn
      rw [show c.nbits - (n + 1) = c.nbits - 1 - n by omega] at hstart
      simp only [cyclesLeft] at hj hstart ⊢
      omega
    · obtain ⟨t, hst, ht⟩ := h.step_low_last hn hr
      refine ⟨t, hst, n, _, _, ht, by simp, ?_⟩
      simp only [cyclesLeft, show c.nbits - 1 - n = 0 by omega] at hj ⊢
      omega
  | resetGap => simp [cyclesLeft] at hj

/-- A cycle of a frame that is not its last leads to the next one. -/
theorem FrameLeft.step (h : FrameLeft c m (j + 1) s) (hr : s.input.rst = false) :
    ∃ t, step s = .next t ∧ FrameLeft c m j t := by
  obtain ⟨n, p, k, hs, hp, hj⟩ := h
  cases k with
  | zero => exact hs.step_last hp hj hr
  | succ k =>
    obtain ⟨t, hst, ht⟩ := hs.step_of_pos hp hr
    rw [cyclesLeft_succ c m n hp] at hj
    exact ⟨t, hst, n, p, k, ht, hp, Nat.succ.inj hj⟩

/-- A run inside a frame, without reset, stays inside it. -/
theorem FrameLeft.after {k : Nat} (h : FrameLeft c m (j + k) s) (hr : NoResetThrough s k) :
    ∃ u, After k s u ∧ FrameLeft c m j u := by
  induction k generalizing s with
  | zero => exact ⟨s, .zero s, h⟩
  | succ k ih =>
    obtain ⟨t, hst, ht⟩ := h.step hr.input_rst
    obtain ⟨u, htu, hu⟩ := ih ht (hr.of_step hst)
    exact ⟨u, .of_step hst htu, hu⟩

end

/-! ## The frame of a TRANSMIT (R62, R138) -/

/-- A TRANSMIT accepted in this cycle has its frame in the FRAME_CYC cycles after it (R138). -/
theorem frameLeft_of_transmit {s : State} {j k : Nat} (hl : s.cfg.Legal) (h : Takes s (.transmit true))
    (hr : NoResetThrough s (k + 1)) (hk : j + k + 1 = s.cfg.frameCyc) :
    ∃ u, After (k + 1) s u ∧ FrameLeft s.cfg s.buf j u := by
  have hst := step_of_transmit hl h
  have hin := inFrame_startBit hl
  have hleft := cyclesLeft_bit_start hl s.buf hin.bit_lt
  rw [Nat.sub_zero, ← Config.frameCyc, ← hk] at hleft
  obtain ⟨u, htu, hu⟩ := FrameLeft.after ⟨0, _, _, hin, by simp, Nat.succ.inj hleft⟩ (hr.of_step hst)
  exact ⟨u, .of_step hst htu, hu⟩

/-- R62: the buffer in the cycle of the TRANSMIT and in every cycle of its frame. -/
theorem buf_frozen_of_transmit {s : State} {k : Nat} (hl : s.cfg.Legal) (h : Takes s (.transmit true))
    (hr : NoResetThrough s k) (hk : k ≤ s.cfg.frameCyc) : ∃ u, After k s u ∧ u.buf = s.buf := by
  cases k with
  | zero => exact ⟨s, .zero s, rfl⟩
  | succ k =>
    obtain ⟨j, hj⟩ := Nat.exists_eq_add_of_le' hk
    obtain ⟨u, hsu, hu⟩ := frameLeft_of_transmit (j := j) hl h hr hj.symm
    exact ⟨u, hsu, hu.buf_eq⟩

/-- Settles O29: every cycle after the TRANSMIT is a cycle of its frame, which holds the contents being sent; and a busy block
accepts no command, so no step of it writes the buffer. -/
theorem bufferIsFrozenDuringAFrame : Obligations.BufferIsFrozenDuringAFrame := by
  unfold Obligations.BufferIsFrozenDuringAFrame
  refine ⟨fun s hl htakes hr => ⟨fun k hk => ?_, doutTrace_of_transmit hl htakes hr⟩,
    fun s t hbusy hst => step_keeps_buf hst (accepted_of_busy hbusy),
    fun s hl _ hrst => ⟨_, step_of_rst hl hrst, rfl, rfl⟩⟩
  exact buf_frozen_of_transmit hl htakes (fun i hi => hr i (hi.trans hk)) hk

end Sys2Proof.Machine
end

section
/-! The statements about the command words (30_encoding.md): the fields a command reads, what every word decodes to,
the words as numbers, and the expansions of the pseudo-instructions. -/

namespace Sys2Proof

open Laws.EncodedRow (opcodeOf)

/-! ## A word is its fields (R70) -/

theorem ofBool_fieldP (w : CmdWord) : BitVec.ofBool (fieldP w) = w.extractLsb' 59 1 := by
  ext i hi
  obtain rfl : i = 0 := by omega
  simp [fieldP]

/-- With `RSV = 0` the other fields determine the word. -/
theorem packWord_fields {w : CmdWord} (h : fieldRsv w = 0) :
    packWord (fieldOp w) (fieldP w) (fieldRv w) (fieldGv w) (fieldBv w) (fieldA w) (fieldE w) = w := by
  rw [packWord, ofBool_fieldP, ← h, fieldA, fieldE, BitVec.ofNat_toNat, BitVec.ofNat_toNat, BitVec.setWidth_eq,
    BitVec.setWidth_eq, fieldOp, fieldRsv, fieldRv, fieldGv, fieldBv]
  simp only [BitVec.extractLsb'_append_extractLsb'_eq_extractLsb']
  exact BitVec.extractLsb'_eq_self

theorem eq_packWord_iff {w : CmdWord} {op : BitVec 4} {p : Bool} {rv gv bv : Byte} {a e : Nat}
    (ha : a < indexBound) (he : e < indexBound) :
    w = packWord op p rv gv bv a e ↔
      fieldRsv w = 0 ∧ fieldOp w = op ∧ fieldP w = p ∧ fieldRv w = rv ∧ fieldGv w = gv ∧ fieldBv w = bv ∧
        fieldA w = a ∧ fieldE w = e := by
  constructor
  · rintro rfl
    simp [fieldA_packWord, fieldE_packWord, ha, he]
  · rintro ⟨h, rfl, rfl, rfl, rfl, rfl, rfl, rfl⟩
    exact (packWord_fields h).symm

/-! ## Masks of whole fields -/

/-- A field of `n` bits in a mask: all of it, or none. -/
def fieldFill (n : Nat) (b : Bool) : BitVec n := if b then BitVec.allOnes n else 0

/-- The mask that keeps the chosen fields of a word, the three colours together. -/
def fieldMask (op p rsv colour a e : Bool) : CmdWord :=
  fieldFill 4 op ++ fieldFill 1 p ++ fieldFill 3 rsv ++ fieldFill 8 colour ++ fieldFill 8 colour ++ fieldFill 8 colour ++
    fieldFill 16 a ++ fieldFill 16 e

theorem extractLsb'_and_of_fill {w m : CmdWord} {start n : Nat} {b : Bool} (h : m.extractLsb' start n = fieldFill n b) :
    (w &&& m).extractLsb' start n = if b then w.extractLsb' start n else 0 := by
  rw [BitVec.extractLsb'_and, h]
  cases b <;> simp [fieldFill]

section
variable (w : CmdWord) (op p rsv colour a e : Bool)

@[simp] theorem fieldOp_and_fieldMask :
    fieldOp (w &&& fieldMask op p rsv colour a e) = if op then fieldOp w else 0 :=
  extractLsb'_and_of_fill (by revert op p rsv colour a e; decide)

@[simp] theorem fieldP_and_fieldMask : fieldP (w &&& fieldMask op p rsv colour a e) = (p && fieldP w) := by
  have h : fieldP (fieldMask op p rsv colour a e) = p := by revert op p rsv colour a e; decide
  rw [fieldP, BitVec.getLsbD_and, ← fieldP, ← fieldP, h, Bool.and_comm]

@[simp] theorem fieldRsv_and_fieldMask :
    fieldRsv (w &&& fieldMask op p rsv colour a e) = if rsv then fieldRsv w else 0 :=
  extractLsb'_and_of_fill (by revert op p rsv colour a e; decide)

@[simp] theorem fieldRv_and_fieldMask :
    fieldRv (w &&& fieldMask op p rsv colour a e) = if colour then fieldRv w else 0 :=
  extractLsb'_and_of_fill (by revert op p rsv colour a e; decide)

@[simp] theorem fieldGv_and_fieldMask :
    fieldGv (w &&& fieldMask op p rsv colour a e) = if colour then fieldGv w else 0 :=
  extractLsb'_and_of_fill (by revert op p rsv colour a e; decide)

@[simp] theorem fieldBv_and_fieldMask :
    fieldBv (w &&& fieldMask op p rsv colour a e) = if colour then fieldBv w else 0 :=
  extractLsb'_and_of_fill (by revert op p rsv colour a e; decide)

@[simp] theorem fieldA_and_fieldMask :
    fieldA (w &&& fieldMask op p rsv colour a e) = if a then fieldA w else 0 := by
  rw [fieldA, extractLsb'_and_of_fill (b := a) (by revert op p rsv colour a e; decide)]
  cases a <;> rfl

@[simp] theorem fieldE_and_fieldMask :
    fieldE (w &&& fieldMask op p rsv colour a e) = if e then fieldE w else 0 := by
  rw [fieldE, extractLsb'_and_of_fill (b := e) (by revert op p rsv colour a e; decide)]
  cases e <;> rfl

end

section
variable (p : Bool) (r g b : Byte) (pos start stop : Nat)

@[simp] theorem Instr.readMask_clear : (Instr.clear p).readMask = fieldMask true true true false false false := by rfl

@[simp] theorem Instr.readMask_setcolor :
    (Instr.setcolor p r g b pos).readMask = fieldMask true true true true true false := by rfl

@[simp] theorem Instr.readMask_setrange :
    (Instr.setrange p r g b start stop).readMask = fieldMask true true true true true true := by rfl

@[simp] theorem Instr.readMask_transmit :
    (Instr.transmit p).readMask = fieldMask true true true false false false := by rfl

end

/-! ## The branches of `decode` (R74) -/

theorem decode_of_rsv_ne_zero {w : CmdWord} (h : fieldRsv w ≠ 0) :
    decode w = .reserved (.reservedBits (fieldRsv w)) :=
  if_pos h

section
variable {w : CmdWord} (h0 : fieldRsv w = 0)
include h0

theorem decode_of_op_clear (hop : fieldOp w = 1) : decode w = .command (.clear (fieldP w)) := by
  simp [decode, h0, hop]

theorem decode_of_op_setcolor (hop : fieldOp w = 2) :
    decode w = .command (.setcolor (fieldP w) (fieldRv w) (fieldGv w) (fieldBv w) (fieldA w)) := by
  simp [decode, h0, hop]

theorem decode_of_op_setrange (hop : fieldOp w = 3) :
    decode w = .command (.setrange (fieldP w) (fieldRv w) (fieldGv w) (fieldBv w) (fieldA w) (fieldE w)) := by
  simp [decode, h0, hop]

theorem decode_of_op_transmit (hop : fieldOp w = 4) : decode w = .command (.transmit (fieldP w)) := by
  simp [decode, h0, hop]

theorem decode_of_other_op (h1 : fieldOp w ≠ 1) (h2 : fieldOp w ≠ 2) (h3 : fieldOp w ≠ 3) (h4 : fieldOp w ≠ 4) :
    decode w = .reserved (.reservedOpcode (fieldOp w)) := by
  rw [decode, if_neg (not_not_intro h0), if_neg h1, if_neg h2, if_neg h3, if_neg h4]

end

/-- `decode_command_cases` and its converse. -/
theorem decode_command_iff {w : CmdWord} {i : Instr} :
    decode w = .command i ↔ fieldRsv w = 0 ∧
      ((fieldOp w = 1 ∧ i = .clear (fieldP w)) ∨
       (fieldOp w = 2 ∧ i = .setcolor (fieldP w) (fieldRv w) (fieldGv w) (fieldBv w) (fieldA w)) ∨
       (fieldOp w = 3 ∧ i = .setrange (fieldP w) (fieldRv w) (fieldGv w) (fieldBv w) (fieldA w) (fieldE w)) ∨
       (fieldOp w = 4 ∧ i = .transmit (fieldP w))) := by
  refine ⟨decode_command_cases, ?_⟩
  rintro ⟨h0, ⟨hop, rfl⟩ | ⟨hop, rfl⟩ | ⟨hop, rfl⟩ | ⟨hop, rfl⟩⟩
  · exact decode_of_op_clear h0 hop
  · exact decode_of_op_setcolor h0 hop
  · exact decode_of_op_setrange h0 hop
  · exact decode_of_op_transmit h0 hop

/-! ## The fields a command reads (R73) -/

theorem wf_of_decode {w : CmdWord} {i : Instr} (h : decode w = .command i) : i.wf = true := by
  obtain ⟨-, ⟨-, rfl⟩ | ⟨-, rfl⟩ | ⟨-, rfl⟩ | ⟨-, rfl⟩⟩ := decode_command_cases h <;>
    simp only [Instr.wf, fieldA_lt, fieldE_lt, decide_true, Bool.and_self]

/-- The encoding of the command a word decodes to is the word with its ignored fields 0. -/
theorem and_readMask_of_decode {w : CmdWord} {i : Instr} (h : decode w = .command i) : w &&& i.readMask = encode i := by
  have h0 : 0 < indexBound := by decide
  have hA := fieldA_lt w
  have hE := fieldE_lt w
  obtain ⟨hrsv, ⟨hop, rfl⟩ | ⟨hop, rfl⟩ | ⟨hop, rfl⟩ | ⟨hop, rfl⟩⟩ := decode_command_cases h <;>
    simp [encode, eq_packWord_iff, hrsv, hop, h0, hA, hE]

/-- A word whose fields read by `i` are those of the encoding of `i` decodes to `i`. -/
theorem decode_of_and_readMask {w : CmdWord} {i : Instr} (hwf : i.wf = true) (h : w &&& i.readMask = encode i) :
    decode w = .command i := by
  rw [decode_command_iff]
  have h0 : 0 < indexBound := by decide
  cases i with
  | clear p => simpa [encode, eq_packWord_iff, h0, eq_comm] using h
  | setcolor p r g b pos =>
    have hpos : pos < indexBound := by simpa [Instr.wf] using hwf
    simpa [encode, eq_packWord_iff, h0, hpos, eq_comm] using h
  | setrange p r g b start stop =>
    have hspan : start < indexBound ∧ stop < indexBound := by simpa [Instr.wf] using hwf
    simpa [encode, eq_packWord_iff, hspan, eq_comm] using h
  | transmit p => simpa [encode, eq_packWord_iff, h0, eq_comm] using h

/-- Settles O2: a word decodes to `i` exactly when its fields read by `i` are those of the encoding of `i`, and that is the
same for two words that agree on these fields. -/
theorem ignoredFieldsDoNotMatter : Obligations.IgnoredFieldsDoNotMatter := by
  unfold Obligations.IgnoredFieldsDoNotMatter
  intro w i h
  have hread := and_readMask_of_decode h
  have hwf := wf_of_decode h
  exact ⟨(decode_command_cases h).1, hwf, hread.symm, fun w' hw' => decode_of_and_readMask hwf (hw'.trans hread)⟩

/-! ## The opcode table (R72, R74) -/

/-- The table's rows test `OP` and `RSV`, and nothing else. -/
theorem and_headerMask_eq_iff {w : CmdWord} {op : BitVec 4} :
    w &&& fieldMask true false true false false false = packWord op false 0 0 0 0 0 ↔
      fieldRsv w = 0 ∧ fieldOp w = op := by
  simp [eq_packWord_iff]

/-- The row of a command in the opcode table. -/
def Instr.row (i : Instr) : OpcodeRow :=
  { mnemonic := i.mnemonic
    mask := fieldMask true false true false false false
    pattern := packWord (opcodeOf i) false 0 0 0 0 0 }

theorem opcodeTable_eq : opcodeTable = [(Instr.clear true).row, (Instr.setcolor true 0 0 0 0).row,
    (Instr.setrange true 0 0 0 0 0).row, (Instr.transmit true).row] := by
  decide

theorem Instr.row_matches_iff {i : Instr} {w : CmdWord} :
    i.row.matches w = true ↔ fieldRsv w = 0 ∧ fieldOp w = opcodeOf i := by
  rw [OpcodeRow.matches, beq_iff_eq]
  exact and_headerMask_eq_iff

theorem Instr.mnemonic_eq_iff {i j : Instr} : i.mnemonic = j.mnemonic ↔ opcodeOf i = opcodeOf j := by
  cases i <;> cases j <;> simp [Instr.mnemonic, opcodeOf]

theorem fieldOp_of_decode {w : CmdWord} {i : Instr} (h : decode w = .command i) : fieldOp w = opcodeOf i := by
  obtain ⟨-, ⟨hop, rfl⟩ | ⟨hop, rfl⟩ | ⟨hop, rfl⟩ | ⟨hop, rfl⟩⟩ := decode_command_cases h <;> exact hop

/-- A word decodes to a command of `i`'s row exactly when its `RSV` is 0 and its opcode is that of `i`. -/
theorem decode_mnemonic_iff {w : CmdWord} {i : Instr} :
    (∃ j, decode w = .command j ∧ j.mnemonic = i.mnemonic) ↔ fieldRsv w = 0 ∧ fieldOp w = opcodeOf i := by
  constructor
  · rintro ⟨j, hj, hm⟩
    exact ⟨(decode_command_cases hj).1, (fieldOp_of_decode hj).trans (Instr.mnemonic_eq_iff.mp hm)⟩
  · rintro ⟨h0, hop⟩
    cases i with
    | clear => exact ⟨_, decode_of_op_clear h0 hop, rfl⟩
    | setcolor => exact ⟨_, decode_of_op_setcolor h0 hop, rfl⟩
    | setrange => exact ⟨_, decode_of_op_setrange h0 hop, rfl⟩
    | transmit => exact ⟨_, decode_of_op_transmit h0 hop, rfl⟩

theorem matches_iff_decode {row : OpcodeRow} (h : row ∈ opcodeTable) (w : CmdWord) :
    row.matches w = true ↔ ∃ i, decode w = .command i ∧ i.mnemonic = row.mnemonic := by
  have hrow : ∃ i : Instr, row = i.row := by
    rw [opcodeTable_eq] at h
    simp only [List.mem_cons, List.not_mem_nil, or_false] at h
    obtain h | h | h | h := h <;> exact ⟨_, h⟩
  obtain ⟨i, rfl⟩ := hrow
  exact Instr.row_matches_iff.trans decode_mnemonic_iff.symm

end Sys2Proof

namespace Sys2Proof.Machine

theorem executeWord_of_reserved {w : CmdWord} {why : ReservedWhy} (h : decode w = .reserved why) (s : State) :
    executeWord w s = .next { s with result := .invalidCmd } := by
  rw [executeWord, h]
  rfl

/-- Settles O3: the branches of `decode`, the rejection of a reserved word, and the rows of the opcode table, each a test of
`OP` and `RSV`. -/
theorem decodeFollowsTheOpcodeMap : Obligations.DecodeFollowsTheOpcodeMap := by
  unfold Obligations.DecodeFollowsTheOpcodeMap
  exact fun w s => ⟨decode_of_rsv_ne_zero,
    decode_of_op_clear, decode_of_op_setcolor, decode_of_op_setrange, decode_of_op_transmit,
    decode_of_other_op, fun _ hwhy => executeWord_of_reserved hwhy s, fun _ hrow => matches_iff_decode hrow w⟩

end Sys2Proof.Machine

namespace Sys2Proof

/-! ## The words as numbers (R79) -/

theorem toNat_append_eq_add {m n : Nat} (x : BitVec m) (y : BitVec n) : (x ++ y).toNat = x.toNat * 2 ^ n + y.toNat := by
  rw [BitVec.toNat_append, ← Nat.shiftLeft_add_eq_or_of_lt y.isLt, Nat.shiftLeft_eq]

theorem packWord_toNat {op : BitVec 4} {p : Bool} {rv gv bv : Byte} {a e : Nat} (ha : a < indexBound)
    (he : e < indexBound) :
    (packWord op p rv gv bv a e).toNat =
      (op.toNat * 16 + if p then 8 else 0) * 2 ^ 56 + rv.toNat * 2 ^ 48 + gv.toNat * 2 ^ 40 + bv.toNat * 2 ^ 32 +
        a * 2 ^ 16 + e := by
  have hp : p.toNat * 8 = if p then 8 else 0 := by cases p <;> rfl
  simp only [packWord, toNat_append_eq_add, BitVec.toNat_ofBool, BitVec.toNat_ofNat, BitVec.ofNat_eq_ofNat, ← hp]
  rw [Nat.mod_eq_of_lt ha, Nat.mod_eq_of_lt he]
  omega

/-- Settles O4: the packed word is the sum of its shifted fields, and `OP`, `P` and `RSV` make up the top byte. -/
theorem wordsOfTheCommands : Obligations.WordsOfTheCommands := by
  unfold Obligations.WordsOfTheCommands
  intro p r g b pos a e hpos ha he
  have h0 : 0 < indexBound := by decide
  refine ⟨?_, ?_, ?_, ?_, by decide⟩ <;> cases p <;> simp [encode, packWord_toNat, h0, hpos, ha, he]

end Sys2Proof

namespace Sys2Proof.Machine

/-! ## Pseudo-instructions (R78) -/

/-- A line that expands to one line gives at most one word, that line's. -/
theorem assembleLine_of_expand {l l' : AsmLine} (h : l.expand = [l']) : assembleLine l = l'.word?.map ([·]) := by
  rw [assembleLine, h]
  cases hw : l'.word? <;> simp [hw]

/-- Settles O49: LEDOFF and its SETCOLOR have the same expansion, one line; the lines of SHOW and BLACKOUT have no operands
that could be refused. -/
theorem pseudoInstructionsExpand : Obligations.PseudoInstructionsExpand := by
  unfold Obligations.PseudoInstructionsExpand
  refine ⟨fun _ => rfl, fun pos ws h => ?_, rfl, rfl⟩
  rw [assembleLine_of_expand rfl, Option.map_eq_some_iff] at h
  obtain ⟨w, -, rfl⟩ := h
  rfl

end Sys2Proof.Machine
end

section
/-! The statements about the buffer commands (40_buffer_commands.md): what CLEAR, SETCOLOR and SETRANGE write, what they leave
alone, and how long a cleared buffer stays clear. -/

namespace Sys2Proof

/-- The top byte of a word is `OP`, `P` and `RSV = 0` (R70). -/
theorem packWord_topByte (op : BitVec 4) (p : Bool) (rv gv bv : Byte) (a e : Nat) :
    (packWord op p rv gv bv a e).extractLsb' 56 8 = op ++ BitVec.ofBool p ++ (0 : BitVec 3) := by
  rw [packWord]
  iterate 5 rw [BitVec.extractLsb'_append_eq_of_le (by omega)]
  exact BitVec.extractLsb'_eq_self

end Sys2Proof

namespace Sys2Proof.Machine

/-! ## How a buffer command ends, as an update of the state -/

section
variable {s : State}

theorem exec_clear_performed :
    exec (.clear true) s = .next { s with buf := s.buf.zeroBytes s.cfg.nbytes, result := .ok } :=
  execClear_true s

theorem exec_clear_rejected : exec (.clear false) s = .next { s with result := .invalidArg } := execClear_false s

theorem exec_setcolor_performed {pos : Nat} (h : pos < s.cfg.n) (r g b : Byte) :
    exec (.setcolor true r g b pos) s = .next { s with buf := writeTriplet s.buf pos r g b, result := .ok } :=
  execSetcolor_of_valid r g b (setcolorArgsValid_eq_true.mpr ⟨rfl, h⟩)

theorem exec_setcolor_rejected {p : Bool} {pos : Nat} (h : ¬ (p = true ∧ pos < s.cfg.n)) (r g b : Byte) :
    exec (.setcolor p r g b pos) s = .next { s with result := .invalidArg } :=
  execSetcolor_of_invalid r g b (mt setcolorArgsValid_eq_true.mp h)

/-- What a performed SETRANGE leaves in the buffer. -/
def setrangeBuf (m : Memory) (r g b : Byte) (start stop : Nat) : Memory :=
  writeSpan m (spanLo start stop) r g b (spanCount start stop)

theorem exec_setrange_performed {start stop : Nat} (h : start < s.cfg.n ∧ stop < s.cfg.n ∧ start ≠ stop)
    (r g b : Byte) :
    exec (.setrange true r g b start stop) s =
      .next { s with buf := setrangeBuf s.buf r g b start stop, result := .ok } :=
  execSetrange_of_valid r g b (setrangeArgsValid_eq_true.mpr ⟨rfl, h⟩)

theorem exec_setrange_rejected {p : Bool} {start stop : Nat}
    (h : ¬ (p = true ∧ start < s.cfg.n ∧ stop < s.cfg.n ∧ start ≠ stop)) (r g b : Byte) :
    exec (.setrange p r g b start stop) s = .next { s with result := .invalidArg } :=
  execSetrange_of_invalid r g b (mt setrangeArgsValid_eq_true.mp h)

end

/-- A buffer command answers a next state on every state, and writes no register but `BUF` and `RESULT`. -/
theorem exec_of_isBufferCommand {i : Instr} (h : isBufferCommand i = true) (s : State) :
    ∃ (m : Memory) (res : ResultCode), exec i s = .next { s with buf := m, result := res } := by
  cases i with
  | clear p =>
    cases p
    · exact ⟨s.buf, _, exec_clear_rejected⟩
    · exact ⟨_, _, exec_clear_performed⟩
  | setcolor p r g b pos =>
    by_cases hv : p = true ∧ pos < s.cfg.n
    · obtain ⟨rfl, hpos⟩ := hv
      exact ⟨_, _, exec_setcolor_performed hpos r g b⟩
    · exact ⟨s.buf, _, exec_setcolor_rejected hv r g b⟩
  | setrange p r g b start stop =>
    by_cases hv : p = true ∧ start < s.cfg.n ∧ stop < s.cfg.n ∧ start ≠ stop
    · obtain ⟨rfl, hspan⟩ := hv
      exact ⟨_, _, exec_setrange_performed hspan r g b⟩
    · exact ⟨s.buf, _, exec_setrange_rejected hv r g b⟩
  | transmit p => simp [isBufferCommand] at h

/-- Settles O16: the next state is the old one with `BUF` and `RESULT` replaced, and neither the sequencer's registers nor the
three outputs depend on these two. -/
theorem bufferCommandsKeepTheSequencer : Obligations.BufferCommandsKeepTheSequencer := by
  unfold Obligations.BufferCommandsKeepTheSequencer
  intro s i hi
  obtain ⟨m, res, hexec⟩ := exec_of_isBufferCommand hi s
  exact ⟨_, hexec, rfl, rfl, rfl, rfl, rfl, rfl, rfl, rfl, rfl, rfl⟩

/-! ## CLEAR (R101, R102) -/

/-- Settles O9: what CLEAR's loop leaves at each offset. -/
theorem clearZeroesTheBuffer : Obligations.ClearZeroesTheBuffer := by
  unfold Obligations.ClearZeroesTheBuffer
  refine ⟨by decide, fun s hwf => ⟨⟨_, exec_clear_performed, fun a ha => ?_, fun a ha => ?_⟩,
    exec_clear_rejected⟩⟩
  · rw [Memory.readByte_zeroBytes hwf, if_pos ha]
  · rw [Memory.readByte_zeroBytes hwf, if_neg (not_lt.mpr ha)]

/-- The command a cycle takes, if it takes one, is no performed buffer command. -/
def PerformsNoBufferCommand (s : State) : Prop :=
  ∀ i, Takes s i → isBufferCommand i = true → commandResult s.cfg (.command i) ≠ .ok

/-- Besides a performed buffer command, nothing a cycle can execute writes the buffer (R52). -/
theorem step_keeps_buf_of_performsNoBufferCommand {s t : State} (h : step s = .next t)
    (hno : PerformsNoBufferCommand s) : t.buf = s.buf := by
  cases hacc : accepted s
  case false => exact step_keeps_buf h hacc
  case true =>
    rw [step_of_accepted (step_cases h).1 hacc] at h
    cases hd : decode s.input.cmdWord with
    | reserved why =>
      rw [executeWord_of_reserved hd] at h
      cases h
      rfl
    | command i =>
      simp only [executeWord, hd] at h
      obtain ⟨-, rfl⟩ | ⟨hbuf, hok, -⟩ | ⟨-, -, rfl⟩ := exec_cases h
      · rfl
      · exact absurd hok (hno i ⟨hacc, hd⟩ hbuf)
      · rfl

theorem After.keeps_buf {k : Nat} {s u : State} (h : After k s u)
    (hno : ∀ j v, j < k → After j s v → PerformsNoBufferCommand v) : u.buf = s.buf := by
  induction k generalizing u with
  | zero => exact congrArg State.buf (h.unique (.zero s))
  | succ k ih =>
    obtain ⟨v, hsv, hvu⟩ := h.succ_last
    have hlast := step_keeps_buf_of_performsNoBufferCommand hvu (hno k v k.lt_succ_self hsv)
    exact hlast.trans (ih hsv fun j w hj => hno j w (hj.trans k.lt_succ_self))

/-- A buffer of zeros answers 0x00 on every address: past its end the read port does so anyway (R33). -/
theorem readPort_of_zero_bytes {s : State} (h : ∀ a, a < s.cfg.nbytes → s.buf.readByte a = 0x00) (addr : BitVec 16) :
    readPort s addr = 0x00 := by
  by_cases haddr : addr.toNat < s.cfg.nbytes
  · rw [readPort_of_lt haddr, h _ haddr]
  · exact readPort_of_ge (not_lt.mp haddr)

/-- Settles O10: CLEAR leaves a buffer of zeros, and a run with no performed buffer command leaves the buffer alone. -/
theorem afterClearEveryAddressReadsZero : Obligations.AfterClearEveryAddressReadsZero := by
  unfold Obligations.AfterClearEveryAddressReadsZero
  intro s hl hwf htakes
  obtain ⟨m, hexec, hzero, -⟩ := (clearZeroesTheBuffer.2 s.nextCycle hwf).1
  refine ⟨_, (step_of_takes hl htakes).trans hexec, readPort_of_zero_bytes hzero, fun k u hu hno => ?_⟩
  have hbuf := hu.keeps_buf fun j v hj hv i => hno j v i hj hv
  refine readPort_of_zero_bytes fun a ha => ?_
  rw [hu.keeps_cfg] at ha
  rw [hbuf]
  exact hzero a ha

/-! ## SETCOLOR (R103, R104) -/

/-- A position whose three bytes are the channels of a colour holds them in the order G, R, B (20_memory.md R51). -/
theorem readByte_triplet {m : Memory} {p : Nat} {r g b : Byte}
    (h : ∀ x, x / 3 = p → m.readByte x = channelAt r g b (x % 3)) :
    m.readByte (3 * p) = g ∧ m.readByte (3 * p + 1) = r ∧ m.readByte (3 * p + 2) = b := by
  rw [h (3 * p) (by omega), h (3 * p + 1) (by omega), h (3 * p + 2) (by omega)]
  simp [channelAt]

/-- Settles O11: the triplet's three offsets are those of LED `p`. -/
theorem setcolorWritesOneTriplet : Obligations.SetcolorWritesOneTriplet := by
  unfold Obligations.SetcolorWritesOneTriplet
  intro s r g b p hwf
  refine ⟨by rw [encode, packWord_topByte]; decide, fun hp => ⟨_, exec_setcolor_performed hp r g b, ?_⟩,
    fun hp => exec_setcolor_rejected (by omega) r g b, exec_setcolor_rejected (by simp) r g b⟩
  have hread := readByte_writeTriplet hwf p (r := r) (g := g) (b := b)
  obtain ⟨hg, hr, hb⟩ := readByte_triplet fun x hx => (hread x).trans (if_pos hx)
  exact ⟨hg, hr, hb, fun a h0 h1 h2 => (hread a).trans (if_neg (by omega))⟩

/-! ## SETRANGE (R105 to R108) -/

/-- A performed SETRANGE, at every offset. -/
theorem readByte_setrangeBuf {m : Memory} (hm : m.wf) (r g b : Byte) (start stop x : Nat) :
    (setrangeBuf m r g b start stop).readByte x =
      if min start stop ≤ x / 3 ∧ x / 3 < max start stop then channelAt r g b (x % 3) else m.readByte x := by
  rw [setrangeBuf, readByte_writeSpan hm]
  congr 2
  rw [spanLo, spanCount, Nat.add_sub_cancel' min_le_max]

theorem setrangeBuf_wf {m : Memory} (hm : m.wf) (r g b : Byte) (start stop : Nat) :
    (setrangeBuf m r g b start stop).wf :=
  writeSpan_wf hm _ r g b _

theorem setrangeBuf_comm (m : Memory) (r g b : Byte) (start stop : Nat) :
    setrangeBuf m r g b start stop = setrangeBuf m r g b stop start := by
  simp only [setrangeBuf, spanLo, spanCount, min_comm, max_comm]

/-- Settles O12: an offset belongs to the span exactly when its LED does. -/
theorem setrangeWritesTheHalfOpenSpan : Obligations.SetrangeWritesTheHalfOpenSpan := by
  unfold Obligations.SetrangeWritesTheHalfOpenSpan
  intro s r g b start stop hwf
  have hread := readByte_setrangeBuf hwf r g b start stop
  refine ⟨by rw [encode, packWord_topByte]; decide,
    fun hstart hstop hne => ⟨_, exec_setrange_performed ⟨hstart, hstop, hne⟩ r g b, fun p hlo hhi => ?_,
      fun a ha => (hread a).trans (if_neg (by omega))⟩,
    fun h => exec_setrange_rejected (by omega) r g b, exec_setrange_rejected (by simp) r g b⟩
  exact readByte_triplet fun x hx => (hread x).trans (if_pos (hx ▸ ⟨hlo, hhi⟩))

/-- SETCOLORs at consecutive positions inside the buffer leave the span they cover. -/
theorem setcolorRun_succ {s : State} {lo k : Nat} (h : lo + k < s.cfg.n) (r g b : Byte) :
    setcolorRun r g b lo (k + 1) s = .next { s with buf := writeSpan s.buf lo r g b (k + 1), result := .ok } := by
  induction k with
  | zero => exact exec_setcolor_performed h r g b
  | succ k ih =>
    rw [setcolorRun, ih (by omega)]
    exact exec_setcolor_performed (s := { s with buf := writeSpan s.buf lo r g b (k + 1), result := .ok }) h r g b

/-- Settles O13: by induction on the span, whose last position is below the larger bound. -/
theorem setrangeEqualsItsSetcolors : Obligations.SetrangeEqualsItsSetcolors := by
  unfold Obligations.SetrangeEqualsItsSetcolors
  intro s r g b a e ha he hne
  have hexec := exec_setrange_performed ⟨ha, he, hne⟩ r g b
  refine ⟨?_, _, hexec, rfl⟩
  obtain ⟨k, hk⟩ : ∃ k, max a e - min a e = k + 1 := ⟨max a e - min a e - 1, by omega⟩
  rw [hexec, setrangeBuf, spanLo, spanCount, hk, setcolorRun_succ (by omega)]

/-- Bounds in range leave LED `N−1` outside the half-open span (R107). -/
theorem setrange_keeps_last_led {s : State} (hwf : s.buf.wf) (p : Bool) (r g b : Byte) (a e : Nat) :
    ∃ t, exec (.setrange p r g b a e) s = .next t ∧
      ∀ x, 3 * (s.cfg.n - 1) ≤ x → t.buf.readByte x = s.buf.readByte x := by
  by_cases hv : p = true ∧ a < s.cfg.n ∧ e < s.cfg.n ∧ a ≠ e
  · obtain ⟨rfl, hspan⟩ := hv
    refine ⟨_, exec_setrange_performed hspan r g b, fun x hx => ?_⟩
    exact (readByte_setrangeBuf hwf r g b a e x).trans (if_neg (by omega))
  · exact ⟨_, exec_setrange_rejected hv r g b, fun _ _ => rfl⟩

/-- SETRANGE over `0 .. N−1` and then SETCOLOR at `N−1` give every LED the colour (R107). -/
theorem setrange_setcolor_fills {s : State} (hwf : s.buf.wf) (hn : 2 ≤ s.cfg.n) (r g b : Byte) :
    ∃ t u, exec (.setrange true r g b 0 (s.cfg.n - 1)) s = .next t ∧
      exec (.setcolor true r g b (s.cfg.n - 1)) t = .next u ∧
      ∀ p, p < s.cfg.n →
        u.buf.readByte (3 * p) = g ∧ u.buf.readByte (3 * p + 1) = r ∧ u.buf.readByte (3 * p + 2) = b := by
  refine ⟨_, _, exec_setrange_performed (by omega) r g b,
    exec_setcolor_performed (by show s.cfg.n - 1 < s.cfg.n; omega) r g b, fun p hp => readByte_triplet fun x hx => ?_⟩
  show (writeTriplet (setrangeBuf s.buf r g b 0 (s.cfg.n - 1)) (s.cfg.n - 1) r g b).readByte x = _
  rw [readByte_writeTriplet (setrangeBuf_wf hwf r g b _ _), readByte_setrangeBuf hwf]
  by_cases hlast : p = s.cfg.n - 1
  · rw [if_pos (hx.trans hlast)]
  · rw [if_neg (by omega), if_pos (by omega)]

/-- Settles O14: LED `N−1` is outside every span, and for `N = 1` no two bounds in range differ. -/
theorem setrangeNeverWritesTheLastLed : Obligations.SetrangeNeverWritesTheLastLed := by
  unfold Obligations.SetrangeNeverWritesTheLastLed
  exact fun s r g b hwf => ⟨fun p a e => setrange_keeps_last_led hwf p r g b a e,
    fun hn p a e => exec_setrange_rejected (by omega) r g b, fun hn => setrange_setcolor_fills hwf hn r g b⟩

/-- Settles O15: the span and its length are symmetric in the bounds. -/
theorem setrangeIsOrderIndependent : Obligations.SetrangeIsOrderIndependent := by
  unfold Obligations.SetrangeIsOrderIndependent
  intro s r g b x y
  refine ⟨fun hne hx hy => ?_, fun h => ⟨_, exec_setrange_rejected (by omega) r g b, rfl⟩⟩
  rw [exec_setrange_performed ⟨hx, hy, hne⟩, exec_setrange_performed ⟨hy, hx, hne.symm⟩, setrangeBuf_comm]

end Sys2Proof.Machine
end

section
/-! How long each phase of the sequencer lasts (41_encoder.md R132 to R136, R139, R140), for every state of the phase: no
statement here needs `CUR` to be the bit of the buffer the sequencer stands at. -/

namespace Sys2Proof.Machine

/-! ## The order of the bits (R134, R136) -/

/-- Before the last bit, `Next` stays in the buffer. -/
theorem nextBit_lt {c : Config} {b k : Nat} (hb : b < c.nbytes) (hl : lastBit c b k = false) :
    (nextBit b k).1 < c.nbytes := by
  have hnot : ¬ (b = c.nbytes - 1 ∧ k = 0) := fun h => by simp [lastBit_eq_true.mpr h] at hl
  unfold nextBit
  split_ifs <;> omega

/-- Settles O21: the first two clauses are the definitions; `NBYTES − 1 = 3·(N−1) + 2` is the B byte of LED `N−1`. -/
theorem bitOrderStaysInTheBuffer : Obligations.BitOrderStaysInTheBuffer := by
  unfold Obligations.BitOrderStaysInTheBuffer
  refine fun c b k => ⟨rfl, lastBit_eq_true, fun hn => ?_, fun hb hl => Nat.le_sub_one_of_lt (nextBit_lt hb hl)⟩
  rw [Config.nbytes]
  omega

/-! ## Cycles without a reset -/

/-- `RST = 0` in this cycle and the ones before the `k`-th after it: `k` cycles in all. -/
def NoResetBefore (s : State) (k : Nat) : Prop := ∀ j, j < k → (s.inputAt j).rst = false

theorem NoResetThrough.before {s : State} {j k : Nat} (h : NoResetThrough s k) (hj : j ≤ k + 1) : NoResetBefore s j :=
  fun i hi => h i (by omega)

theorem NoResetBefore.input_rst {s : State} {k : Nat} (h : NoResetBefore s k) (hk : 0 < k) : s.input.rst = false := by
  rw [State.input_eq_inputAt_zero]
  exact h 0 hk

theorem NoResetBefore.mono {s : State} {j k : Nat} (h : NoResetBefore s k) (hj : j ≤ k) : NoResetBefore s j :=
  fun i hi => h i (by omega)

/-- The cycles of a run that are left after its first `j`. -/
theorem NoResetBefore.of_after {s t : State} {j k : Nat} (h : NoResetBefore s (j + k)) (hst : After j s t) :
    NoResetBefore t k := by
  intro i hi
  rw [hst.inputAt]
  exact h (j + i) (by omega)

theorem NoResetBefore.of_step {s t : State} {k : Nat} (h : NoResetBefore s (k + 1)) (hst : step s = .next t) :
    NoResetBefore t k := by
  rw [Nat.add_comm] at h
  exact h.of_after (.one hst)

/-! ## One cycle of a phase (R132, R133, R135) -/

section
variable {s : State}

/-- While `CNT > 0`, a cycle of any phase but IDLE only counts down. -/
theorem step_of_cnt_pos (hl : s.cfg.Legal) (hr : s.input.rst = false) (hp : s.phase ≠ .idle) (hpos : 0 < s.cnt.toNat) :
    step s = .next { s.nextCycle with cnt := s.cnt - 1 } := by
  have hcnt : countDown s.nextCycle = { s.nextCycle with cnt := s.cnt - 1 } := by
    have hpred : BitVec.ofNat 32 (s.cnt.toNat - 1) = s.cnt - 1 := by bv_omega
    rw [← hpred]
    rfl
  have hpos' : 0 < s.nextCycle.cnt.toNat := hpos
  rw [← hcnt]
  cases hphase : s.phase with
  | idle => exact absurd hphase hp
  | emitHigh => rw [step_of_emitHigh hl hr hphase, stepHigh, if_pos hpos']
  | emitLow => rw [step_of_emitLow hl hr hphase, stepLow, if_pos hpos']
  | resetGap => rw [step_of_resetGap hl hr hphase, stepGap, if_pos hpos']

theorem step_high_of_cnt_zero (hl : s.cfg.Legal) (hr : s.input.rst = false) (hp : s.phase = .emitHigh)
    (hz : s.cnt.toNat = 0) :
    step s = .next { s.nextCycle with phase := .emitLow, cnt := BitVec.ofNat 32 (s.cfg.lowCyc s.cur - 1) } := by
  rw [step_of_emitHigh hl hr hp, stepHigh, if_neg (by simp [hz])]
  rfl

theorem step_low_of_lastBit (hl : s.cfg.Legal) (hr : s.input.rst = false) (hp : s.phase = .emitLow)
    (hz : s.cnt.toNat = 0) (hlast : lastBit s.cfg s.byteIdx.toNat s.bitIdx.toNat = true) :
    step s = .next { s.nextCycle with phase := .resetGap, cnt := BitVec.ofNat 32 (s.cfg.resetCyc - 1) } := by
  have hlast' : lastBit s.nextCycle.cfg s.nextCycle.byteIdx.toNat s.nextCycle.bitIdx.toNat = true := hlast
  rw [step_of_emitLow hl hr hp, stepLow, if_neg (by simp [hz]), if_pos hlast']
  rfl

/-- Inside the buffer StepLow reads the next bit there, so its fault is out of reach (R134). -/
theorem step_low_of_not_lastBit (hl : s.cfg.Legal) (hr : s.input.rst = false) (hp : s.phase = .emitLow)
    (hb : s.byteIdx.toNat < s.cfg.nbytes) (hz : s.cnt.toNat = 0)
    (hlast : lastBit s.cfg s.byteIdx.toNat s.bitIdx.toNat = false)
    {nb nk : Nat} (hnext : nextBit s.byteIdx.toNat s.bitIdx.toNat = (nb, nk)) :
    step s = .next (startBit nb nk ((s.buf.readByte nb).getLsbD nk) s.nextCycle) := by
  have hnb : nb < s.nextCycle.cfg.nbytes := by simpa [hnext] using nextBit_lt hb hlast
  have hl' : ¬ lastBit s.cfg s.byteIdx.toNat s.bitIdx.toNat = true := by simp [hlast]
  rw [step_of_emitLow hl hr hp, stepLow, if_neg (by simp [hz])]
  simp only [State.nextCycle_cfg, State.nextCycle_byteIdx, State.nextCycle_bitIdx, if_neg hl', hnext,
    State.bufBit?_of_lt nk hnb, State.nextCycle_buf]

theorem step_gap_of_cnt_zero (hl : s.cfg.Legal) (hr : s.input.rst = false) (hp : s.phase = .resetGap)
    (hz : s.cnt.toNat = 0) : step s = .next { s.nextCycle with phase := .idle } := by
  rw [step_of_resetGap hl hr hp, stepGap, if_neg (by simp [hz])]
  rfl

/-! ## The cycles of a phase -/

/-- `s` after `k` cycles that only counted down. -/
def State.counted (s : State) (k : Nat) : State :=
  { s with cnt := BitVec.ofNat 32 (s.cnt.toNat - k), inputs := s.inputs.drop k }

theorem State.counted_cnt_toNat (s : State) (k : Nat) : (s.counted k).cnt.toNat = s.cnt.toNat - k := by
  have := s.cnt.isLt
  rw [State.counted, BitVec.toNat_ofNat]
  omega

theorem State.counted_zero (s : State) : s.counted 0 = s := by simp [State.counted]

theorem step_counted (hl : s.cfg.Legal) (hp : s.phase ≠ .idle) {k : Nat} (hk : k < s.cnt.toNat)
    (hr : (s.counted k).input.rst = false) : step (s.counted k) = .next (s.counted (k + 1)) := by
  have hcnt := s.counted_cnt_toNat k
  have hpred : (s.counted k).cnt - 1 = BitVec.ofNat 32 (s.cnt.toNat - (k + 1)) := by bv_omega
  rw [step_of_cnt_pos (s := s.counted k) hl hr hp (by omega), hpred]
  simp [State.counted, State.nextCycle]

/-- Up to `CNT` cycles of a phase only count down. -/
theorem after_counted (hl : s.cfg.Legal) (hp : s.phase ≠ .idle) {k : Nat} (hk : k ≤ s.cnt.toNat)
    (hr : NoResetBefore s k) : After k s (s.counted k) := by
  induction k with
  | zero => exact s.counted_zero.symm ▸ .zero s
  | succ k ih =>
    have hrun := ih (by omega) (hr.mono (by omega))
    exact hrun.add (.one (step_counted hl hp hk ((hr.of_after hrun).input_rst one_pos)))

/-- A phase entered with `CNT = len − 1` only counts down in its first `len` cycles. -/
theorem after_counted_of_lt (hl : s.cfg.Legal) (hp : s.phase ≠ .idle) {len j : Nat} (hcnt : s.cnt.toNat = len - 1)
    (hr : NoResetBefore s len) (hj : j < len) : After j s (s.counted j) :=
  after_counted hl hp (by omega) (hr.mono hj.le)

/-- A phase entered with `CNT = len − 1` is left after `len` cycles; `P` is what its last cycle leads to. -/
theorem after_phase (hl : s.cfg.Legal) (hp : s.phase ≠ .idle) {len : Nat} (hlen : 0 < len)
    (hcnt : s.cnt.toNat = len - 1) (hr : NoResetBefore s len) {P : State → Prop}
    (hlast : (s.counted (len - 1)).input.rst = false → (s.counted (len - 1)).cnt.toNat = 0 →
      ∃ t, step (s.counted (len - 1)) = .next t ∧ P t) : ∃ t, After len s t ∧ P t := by
  obtain ⟨k, rfl⟩ : ∃ k, len = k + 1 := ⟨len - 1, by omega⟩
  rw [Nat.add_sub_cancel] at hcnt hlast
  have hrun := after_counted_of_lt (len := k + 1) hl hp hcnt hr k.lt_succ_self
  have hz : (s.counted k).cnt.toNat = 0 := by rw [s.counted_cnt_toNat, hcnt, Nat.sub_self]
  obtain ⟨t, hstep, ht⟩ := hlast ((hr.of_after hrun).input_rst one_pos) hz
  exact ⟨t, hrun.add (.one hstep), ht⟩

/-! ## RESET_GAP (R135) -/

/-- Settles O20: the gap counts down from `RESET_CYC − 1`, and its last cycle enters IDLE. -/
theorem resetGapLastsResetCyc : Obligations.ResetGapLastsResetCyc := by
  unfold Obligations.ResetGapLastsResetCyc
  intro s hl hp
  have hbusy : s.phase ≠ .idle := by simp [hp]
  refine ⟨fun hr => ⟨step_of_cnt_pos hl hr hbusy, step_gap_of_cnt_zero hl hr hp⟩, fun hcnt hr => ?_⟩
  have hpos := hl.resetCyc_pos
  have hr' := hr.before (j := s.cfg.resetCyc) (by omega)
  have hlow : dout s = false := by simp [dout, hp]
  refine ⟨fun j hj => ⟨_, after_counted_of_lt hl hbusy hcnt hr' hj, hp, hlow, rfl⟩, ?_⟩
  exact after_phase hl hbusy hpos hcnt hr' fun hrst hz => ⟨_, step_gap_of_cnt_zero hl hrst hp hz, rfl, rfl⟩

/-! ## EMIT_HIGH (R132) -/

/-- The first cycle of the low part of the bit whose high part ends in `s`. -/
def State.lowStart (s : State) : State :=
  { s.nextCycle with phase := .emitLow, cnt := BitVec.ofNat 32 (s.cfg.lowCyc s.cur - 1) }

theorem State.lowStart_cnt_toNat (hl : s.cfg.Legal) : s.lowStart.cnt.toNat = s.cfg.lowCyc s.cur - 1 := by
  have := hl.lowCyc_lt s.cur
  rw [State.lowStart, BitVec.toNat_ofNat]
  omega

/-- The high part of a bit is followed by its low part. -/
theorem after_high (hl : s.cfg.Legal) (hp : s.phase = .emitHigh) (hcnt : s.cnt.toNat = s.cfg.highCyc s.cur - 1)
    (hr : NoResetBefore s (s.cfg.highCyc s.cur)) :
    After (s.cfg.highCyc s.cur) s (s.counted (s.cfg.highCyc s.cur - 1)).lowStart := by
  obtain ⟨_, hrun, rfl⟩ := after_phase (P := (· = (s.counted (s.cfg.highCyc s.cur - 1)).lowStart)) hl (by simp [hp])
    (hl.highCyc_pos s.cur) hcnt hr fun hrst hz => ⟨_, step_high_of_cnt_zero hl hrst hp hz, rfl⟩
  exact hrun

/-- Settles O18: the phase counts down from `H(CUR) − 1`, which writes `CNT` alone, and its last cycle enters EMIT_LOW. -/
theorem emitHighLastsItsHighTime : Obligations.EmitHighLastsItsHighTime := by
  unfold Obligations.EmitHighLastsItsHighTime
  intro s hl hp
  have hbusy : s.phase ≠ .idle := by simp [hp]
  refine ⟨fun hr => ⟨step_of_cnt_pos hl hr hbusy, step_high_of_cnt_zero hl hr hp⟩, fun hcnt hr => ?_⟩
  have hr' := hr.before (j := s.cfg.highCyc s.cur) (by omega)
  refine ⟨fun j hj => ⟨_, after_counted_of_lt hl hbusy hcnt hr' hj, hp, dout_iff.mpr hp, rfl, rfl, rfl⟩, ?_⟩
  exact ⟨_, after_high hl hp hcnt hr', rfl, State.lowStart_cnt_toNat hl, rfl, rfl, rfl⟩

/-! ## EMIT_LOW (R133) -/

/-- What comes right after bit `k` of byte `i`: the reset gap after the last bit, and the next bit's high part otherwise. -/
def FollowsBit (c : Config) (i k : Nat) (t : State) : Prop :=
  (lastBit c i k = true → t.phase = .resetGap ∧ t.cnt.toNat = c.resetCyc - 1) ∧
  (lastBit c i k = false →
    t.phase = .emitHigh ∧ (t.byteIdx.toNat, t.bitIdx.toNat) = nextBit i k ∧
    t.cur = currentBit t ∧ t.cnt.toNat = c.highCyc t.cur - 1)

/-- A bit that starts inside the buffer stands at its place there and counts its high time. -/
theorem startBit_position (hl : s.cfg.Legal) {i k : Nat} (hi : i < s.cfg.nbytes) (hk : k ≤ 7) (v : Bool) :
    (startBit i k v s).byteIdx.toNat = i ∧ (startBit i k v s).bitIdx.toNat = k ∧
      (startBit i k v s).cnt.toNat = s.cfg.highCyc v - 1 := by
  have hfit := hl.nbytes_lt
  have hhigh := hl.highCyc_lt v
  rw [startBit_byteIdx, startBit_bitIdx, startBit_cnt, BitVec.toNat_ofNat, BitVec.toNat_ofNat, BitVec.toNat_ofNat]
  omega

/-- The last cycle of the low part leads to what comes after the bit. -/
theorem step_low_last (hl : s.cfg.Legal) (hr : s.input.rst = false) (hp : s.phase = .emitLow)
    (hb : s.byteIdx.toNat < s.cfg.nbytes) (hz : s.cnt.toNat = 0) :
    ∃ t, step s = .next t ∧ FollowsBit s.cfg s.byteIdx.toNat s.bitIdx.toNat t := by
  cases hlast : lastBit s.cfg s.byteIdx.toNat s.bitIdx.toNat with
  | true =>
    refine ⟨_, step_low_of_lastBit hl hr hp hz hlast, fun _ => ⟨rfl, ?_⟩, fun h => absurd h (by simp [hlast])⟩
    have := hl.resetCyc_lt
    rw [BitVec.toNat_ofNat]
    omega
  | false =>
    obtain ⟨nb, nk, hnext⟩ : ∃ nb nk, nextBit s.byteIdx.toNat s.bitIdx.toNat = (nb, nk) := ⟨_, _, rfl⟩
    have hnb : nb < s.cfg.nbytes := by simpa [hnext] using nextBit_lt hb hlast
    have hnk : nk ≤ 7 := by simpa [hnext] using (nextBit_place (i := s.byteIdx.toNat) (k := s.bitIdx.toNat) (by omega)).2
    obtain ⟨hbyte, hbit, hcnt⟩ := startBit_position (s := s.nextCycle) hl hnb hnk ((s.buf.readByte nb).getLsbD nk)
    refine ⟨_, step_low_of_not_lastBit hl hr hp hb hz hlast hnext, fun h => absurd h (by simp [hlast]),
      fun _ => ⟨rfl, by rw [hbyte, hbit, hnext], ?_, hcnt⟩⟩
    rw [currentBit, hbyte, hbit]
    rfl

/-- The low part of a bit inside the buffer is followed by what comes after the bit. -/
theorem after_low (hl : s.cfg.Legal) (hp : s.phase = .emitLow) (hb : s.byteIdx.toNat < s.cfg.nbytes)
    (hcnt : s.cnt.toNat = s.cfg.lowCyc s.cur - 1) (hr : NoResetBefore s (s.cfg.lowCyc s.cur)) :
    ∃ t, After (s.cfg.lowCyc s.cur) s t ∧ FollowsBit s.cfg s.byteIdx.toNat s.bitIdx.toNat t :=
  after_phase hl (by simp [hp]) (hl.lowCyc_pos s.cur) hcnt hr fun hrst hz => step_low_last hl hrst hp hb hz

/-- Settles O19: the phase counts down from `L(CUR) − 1`, and its last cycle starts the gap or the next bit. -/
theorem emitLowLastsItsLowTime : Obligations.EmitLowLastsItsLowTime := by
  unfold Obligations.EmitLowLastsItsLowTime
  intro s hl hp hb
  have hbusy : s.phase ≠ .idle := by simp [hp]
  refine ⟨fun hr => ⟨step_of_cnt_pos hl hr hbusy, step_low_of_lastBit hl hr hp,
    fun hz hlast nb nk => step_low_of_not_lastBit hl hr hp hb hz hlast⟩, fun hcnt hr => ?_⟩
  have hr' := hr.before (j := s.cfg.lowCyc s.cur) (by omega)
  have hlow : dout s = false := by simp [dout, hp]
  exact ⟨fun j hj => ⟨_, after_counted_of_lt hl hbusy hcnt hr' hj, hp, hlow⟩, after_low hl hp hb hcnt hr'⟩

/-! ## A whole bit (R139, R140) -/

/-- In the `TBIT` cycles of a bit the line is high in the first `H(CUR)` and low in the others. -/
theorem dout_in_bit (hl : s.cfg.Legal) (hp : s.phase = .emitHigh) (hcnt : s.cnt.toNat = s.cfg.highCyc s.cur - 1)
    (hr : NoResetBefore s s.cfg.tbit) {j : Nat} (hj : j < s.cfg.tbit) :
    ∃ t, After j s t ∧ (dout t = true ↔ j < s.cfg.highCyc s.cur) := by
  have htotal := hl.highCyc_add_lowCyc s.cur
  rw [← htotal] at hr hj
  have hrhigh := hr.mono (Nat.le_add_right _ _)
  by_cases hhigh : j < s.cfg.highCyc s.cur
  · exact ⟨_, after_counted_of_lt hl (by simp [hp]) hcnt hrhigh hhigh, iff_of_true (dout_iff.mpr hp) hhigh⟩
  · obtain ⟨i, rfl⟩ := Nat.exists_eq_add_of_le (not_lt.mp hhigh)
    have hstart := after_high hl hp hcnt hrhigh
    have hrun := after_counted_of_lt (s := (s.counted (s.cfg.highCyc s.cur - 1)).lowStart) hl (by simp [State.lowStart])
      (State.lowStart_cnt_toNat hl) (hr.of_after hstart) (Nat.add_lt_add_iff_left.mp hj)
    exact ⟨_, hstart.add hrun, iff_of_false (by simp [dout, State.counted, State.lowStart]) hhigh⟩

/-- A bit inside the buffer is followed, `TBIT` cycles after its first, by the next bit or the gap. -/
theorem after_bit (hl : s.cfg.Legal) (hp : s.phase = .emitHigh) (hb : s.byteIdx.toNat < s.cfg.nbytes)
    (hcnt : s.cnt.toNat = s.cfg.highCyc s.cur - 1) (hr : NoResetBefore s s.cfg.tbit) :
    ∃ t, After s.cfg.tbit s t ∧ FollowsBit s.cfg s.byteIdx.toNat s.bitIdx.toNat t := by
  rw [← hl.highCyc_add_lowCyc s.cur] at hr ⊢
  have hstart := after_high hl hp hcnt (hr.mono (Nat.le_add_right _ _))
  obtain ⟨t, hrun, ht⟩ := after_low (s := (s.counted (s.cfg.highCyc s.cur - 1)).lowStart) hl rfl hb
    (State.lowStart_cnt_toNat hl) (hr.of_after hstart)
  exact ⟨t, hstart.add hrun, ht⟩

/-- Settles O22: the high part and then the low part, whose lengths total `TBIT` by condition 3 of R6. -/
theorem everyBitTakesTBit : Obligations.EveryBitTakesTBit := by
  unfold Obligations.EveryBitTakesTBit
  intro s hl hp hb hcnt hr
  have hr' := hr.before (j := s.cfg.tbit) (by omega)
  exact ⟨fun j => dout_in_bit hl hp hcnt hr', hl.highCyc_add_lowCyc s.cur, after_bit hl hp hb hcnt hr'⟩

end

end Sys2Proof.Machine
end

section
/-! The frame of a TRANSMIT, cycle by cycle (41_encoder.md R137, R138, R141), and that only a reset ends it early (R142). -/

namespace Sys2Proof.Machine

/-! ## Where the sequencer is at the start of each bit, of the gap, and after the frame -/

/-- What holds once the line has sent its values, in cycles without reset. -/
theorem Sends.after {line : List Bool} {P : State → Prop} {s : State} (h : Sends line P s)
    (hr : NoResetBefore s line.length) : ∃ t, After line.length s t ∧ P t := by
  induction line generalizing s with
  | nil => exact ⟨s, .zero s, h⟩
  | cons v line ih =>
    obtain ⟨-, hnext⟩ := h
    obtain ⟨t, hst, ht⟩ := hnext (hr.input_rst (Nat.succ_pos _))
    obtain ⟨u, htu, hu⟩ := ih ht (hr.of_step hst)
    exact ⟨u, .of_step hst htu, hu⟩

/-- A bit that starts in a frame takes `TBIT` cycles; `Q` is what its last cycle leads to. -/
theorem InFrame.after_bit {c : Config} {m : Memory} {n : Nat} {s : State} {Q : State → Prop}
    (h : InFrame c m n .emitHigh (c.highCyc (frameBit m n) - 1) s) (hr : NoResetBefore s c.tbit)
    (hlast : ∀ t, InFrame c m n .emitLow 0 t → t.input.rst = false → ∃ u, step t = .next u ∧ Q u) :
    ∃ u, After c.tbit s u ∧ Q u := by
  rw [← Config.Legal.bitShape_length h.legal (frameBit m n)] at hr ⊢
  exact (h.sends_bit hlast).after hr

/-- `n` bits and the gap fit in the frame. -/
theorem Config.mul_tbit_add_resetCyc_le {c : Config} {n : Nat} (hn : n ≤ c.nbits) :
    n * c.tbit + c.resetCyc ≤ c.frameCyc :=
  Nat.add_le_add_right (Nat.mul_le_mul_right _ hn) _

theorem Config.Legal.nbits_pos {c : Config} (h : c.Legal) : 0 < c.nbits := Nat.mul_pos (by omega) h.nbytes_pos

/-- The bits of a frame are the last one and those before it. -/
theorem Config.Legal.nbits_mul_tbit {c : Config} (h : c.Legal) :
    c.nbits * c.tbit = (c.nbits - 1) * c.tbit + c.tbit := by
  have hpos := Config.Legal.nbits_pos h
  rw [← Nat.succ_mul, Nat.succ_eq_add_one, Nat.sub_add_cancel hpos]

section
variable {s : State} (hl : s.cfg.Legal) (htakes : Takes s (.transmit true)) (hr : NoResetThrough s s.cfg.frameCyc)
include hl htakes hr

/-- Bit `n` starts `n·TBIT + 1` cycles after the TRANSMIT. -/
theorem bit_start_of_transmit {n : Nat} (hn : n < s.cfg.nbits) :
    ∃ u, After (n * s.cfg.tbit + 1) s u ∧
      InFrame s.cfg s.buf n .emitHigh (s.cfg.highCyc (frameBit s.buf n) - 1) u := by
  induction n with
  | zero => exact ⟨_, by simpa using After.one (step_of_transmit hl htakes), inFrame_startBit hl⟩
  | succ n ih =>
    obtain ⟨u, hsu, hu⟩ := ih (by omega)
    have hfit := Config.mul_tbit_add_resetCyc_le hn.le
    rw [Nat.succ_mul] at hfit ⊢
    have hrbit : NoResetBefore s (n * s.cfg.tbit + 1 + s.cfg.tbit) := hr.before (by omega)
    obtain ⟨v, huv, hv⟩ := hu.after_bit (hrbit.of_after hsu) fun t ht => ht.step_low_next hn
    refine ⟨v, ?_, hv⟩
    rw [Nat.add_right_comm]
    exact hsu.add huv

/-- The reset gap starts `NBITS·TBIT + 1` cycles after the TRANSMIT. -/
theorem gap_start_of_transmit :
    ∃ u, After (s.cfg.nbits * s.cfg.tbit + 1) s u ∧
      InFrame s.cfg s.buf (s.cfg.nbits - 1) .resetGap (s.cfg.resetCyc - 1) u := by
  have hpos := Config.Legal.nbits_pos hl
  obtain ⟨u, hsu, hu⟩ := bit_start_of_transmit hl htakes hr (Nat.sub_one_lt_of_lt hpos)
  have hbits : s.cfg.nbits * s.cfg.tbit + 1 = (s.cfg.nbits - 1) * s.cfg.tbit + 1 + s.cfg.tbit := by
    rw [Config.Legal.nbits_mul_tbit hl, Nat.add_right_comm]
  have hrbits : NoResetBefore s (s.cfg.nbits * s.cfg.tbit + 1) :=
    hr.before (by have := Config.mul_tbit_add_resetCyc_le (le_refl s.cfg.nbits); omega)
  rw [hbits] at hrbits ⊢
  obtain ⟨v, huv, hv⟩ := hu.after_bit (hrbits.of_after hsu) fun t ht => ht.step_low_last (by omega)
  exact ⟨v, hsu.add huv, hv⟩

/-- The block is idle `FRAME_CYC + 1` cycles after the TRANSMIT. -/
theorem idle_of_transmit : ∃ u, After (s.cfg.frameCyc + 1) s u ∧ u.phase = .idle := by
  have hst := step_of_transmit hl htakes
  rw [← waveform_length hl s.buf] at hr ⊢
  obtain ⟨u, hu, hidle⟩ := (inFrame_startBit hl).sends_waveform.after ((hr.before le_rfl).of_step hst)
  exact ⟨u, .of_step hst hu, hidle⟩

/-! ## The line in each cycle (R137) -/

/-- In cycle `j` of bit `n` the line is high exactly for `j` below the bit's high time. -/
theorem dout_of_transmit {n j : Nat} (hn : n < s.cfg.nbits) (hj : j < s.cfg.tbit) :
    ∃ u, After (n * s.cfg.tbit + 1 + j) s u ∧ (dout u = true ↔ j < s.cfg.highCyc (frameBit s.buf n)) := by
  obtain ⟨u, hsu, hu⟩ := bit_start_of_transmit hl htakes hr hn
  have hfit := Config.mul_tbit_add_resetCyc_le hn
  rw [Nat.succ_mul] at hfit
  have hrbit : NoResetBefore s (n * s.cfg.tbit + 1 + s.cfg.tbit) := hr.before (by omega)
  have hcnt : u.cnt.toNat = u.cfg.highCyc u.cur - 1 := by rw [hu.cnt_eq, hu.cfg_eq, hu.cur_eq]
  obtain ⟨v, huv, hv⟩ := dout_in_bit (j := j) hu.step_legal hu.phase_eq hcnt
    (hu.cfg_eq ▸ hrbit.of_after hsu) (hu.cfg_eq ▸ hj)
  rw [hu.cfg_eq, hu.cur_eq] at hv
  exact ⟨v, hsu.add huv, hv⟩

theorem dout_high_of_transmit {n k : Nat} (hn : n < s.cfg.nbits) (hk : n * s.cfg.tbit < k)
    (hk' : k ≤ n * s.cfg.tbit + s.cfg.highCyc (frameBit s.buf n)) : ∃ u, After k s u ∧ dout u = true := by
  obtain ⟨j, rfl⟩ := Nat.exists_eq_add_of_le (Nat.succ_le_of_lt hk)
  have htotal := hl.highCyc_add_lowCyc (frameBit s.buf n)
  obtain ⟨u, hsu, hu⟩ := dout_of_transmit hl htakes hr (j := j) hn (by omega)
  exact ⟨u, hsu, hu.mpr (by omega)⟩

theorem dout_low_of_transmit {n k : Nat} (hn : n < s.cfg.nbits)
    (hk : n * s.cfg.tbit + s.cfg.highCyc (frameBit s.buf n) < k) (hk' : k ≤ (n + 1) * s.cfg.tbit) :
    ∃ u, After k s u ∧ dout u = false := by
  rw [Nat.succ_mul] at hk'
  obtain ⟨j, rfl⟩ := Nat.exists_eq_add_of_le (show n * s.cfg.tbit + 1 ≤ k by omega)
  obtain ⟨u, hsu, hu⟩ := dout_of_transmit hl htakes hr (j := j) hn (by omega)
  exact ⟨u, hsu, Bool.eq_false_iff.mpr (mt hu.mp (by omega))⟩

theorem gap_of_transmit {k : Nat} (hk : s.cfg.nbits * s.cfg.tbit < k) (hk' : k ≤ s.cfg.frameCyc) :
    ∃ u, After k s u ∧ u.phase = .resetGap ∧ dout u = false := by
  obtain ⟨u, hsu, hu⟩ := gap_start_of_transmit hl htakes hr
  obtain ⟨j, rfl⟩ := Nat.exists_eq_add_of_le (Nat.succ_le_of_lt hk)
  rw [Config.frameCyc] at hk' hr
  have hrun := after_counted (k := j) hu.step_legal (by simp [hu.phase_eq]) (by rw [hu.cnt_eq]; omega)
    ((hr.before (by omega)).of_after hsu)
  exact ⟨_, hsu.add hrun, hu.phase_eq, hu.dout_eq⟩

end

/-- Settles O23: bit `n` starts `n·TBIT + 1` cycles after the TRANSMIT and the gap after the last bit, and the string is the
trace of these cycles. -/
theorem frameWaveform : Obligations.FrameWaveform := by
  unfold Obligations.FrameWaveform
  intro s hl htakes hr
  refine ⟨fun n hn => ⟨fun k => dout_high_of_transmit hl htakes hr hn, fun k => dout_low_of_transmit hl htakes hr hn⟩,
    fun k => gap_of_transmit hl htakes hr, ?_, doutTrace_of_transmit hl htakes hr⟩
  obtain ⟨u, hsu, hidle⟩ := idle_of_transmit hl htakes hr
  exact ⟨u, hsu, hidle, by simp [dout, hidle]⟩

/-! ## How long a frame is busy (R138) -/

theorem FrameLeft.busy {c : Config} {m : Memory} {j : Nat} {s : State} (h : FrameLeft c m j s) : busy s = true := by
  obtain ⟨n, p, k, hs, hp, -⟩ := h
  exact busy_iff.mpr (hs.phase_eq ▸ hp)

theorem cmdReady_of_busy {s : State} (h : busy s = true) : cmdReady s = false :=
  Bool.eq_false_iff.mpr fun hready => busy_iff.mp h (cmdReady_iff.mp hready).1

/-- Settles O24: each of the `FRAME_CYC` cycles is one of the frame, and the block is idle in the cycle after them. -/
theorem frameIsBusyForFrameCyc : Obligations.FrameIsBusyForFrameCyc := by
  unfold Obligations.FrameIsBusyForFrameCyc
  intro s hl htakes hr
  have hready := (accepted_iff.mp htakes.1).2
  refine ⟨rfl, Bool.eq_false_iff.mpr fun h => busy_iff.mp h (cmdReady_iff.mp hready).1, fun k hk hk' => ?_, ?_⟩
  · obtain ⟨i, rfl⟩ := Nat.exists_eq_add_of_le' hk
    obtain ⟨j, hj⟩ := Nat.exists_eq_add_of_le' hk'
    obtain ⟨u, hsu, hu⟩ := frameLeft_of_transmit (j := j) hl htakes (fun x hx => hr x (hx.trans hk')) hj.symm
    exact ⟨u, hsu, hu.busy, cmdReady_of_busy hu.busy, accepted_of_busy hu.busy⟩
  · obtain ⟨u, hsu, hidle⟩ := idle_of_transmit hl htakes hr
    exact ⟨u, hsu, by simp [busy, hidle], fun hrst => cmdReady_iff.mpr ⟨hidle, hsu.input.symm ▸ hrst⟩⟩

/-! ## The line between two frames (R141) -/

/-- Settles O25: the last high cycle is in bit `NBITS − 1`; after it come that bit's low part, the gap and the idle cycle, in
which a TRANSMIT starts bit 0. -/
theorem lineIsLowBetweenFrames : Obligations.LineIsLowBetweenFrames := by
  unfold Obligations.LineIsLowBetweenFrames
  rintro s hl htakes hr b lastHigh rfl rfl
  have hpos := Config.Legal.nbits_pos hl
  have hlast : s.cfg.nbits - 1 < s.cfg.nbits := Nat.sub_one_lt_of_lt hpos
  have hhigh := hl.highCyc_pos (frameBit s.buf (s.cfg.nbits - 1))
  have htotal := hl.highCyc_add_lowCyc (frameBit s.buf (s.cfg.nbits - 1))
  have hbits := Config.Legal.nbits_mul_tbit hl
  refine ⟨dout_high_of_transmit hl htakes hr hlast (by omega) le_rfl, fun k hk hk' => ?_, ?_, fun u hsu hu => ?_⟩
  · obtain hbit | ⟨hgap, hframe⟩ | rfl : k ≤ s.cfg.nbits * s.cfg.tbit ∨
        (s.cfg.nbits * s.cfg.tbit < k ∧ k ≤ s.cfg.frameCyc) ∨ k = s.cfg.frameCyc + 1 := by omega
    · exact dout_low_of_transmit hl htakes hr hlast hk (by rwa [Nat.sub_add_cancel hpos])
    · obtain ⟨u, hsu, -, hlow⟩ := gap_of_transmit hl htakes hr hgap hframe
      exact ⟨u, hsu, hlow⟩
    · obtain ⟨u, hsu, hidle⟩ := idle_of_transmit hl htakes hr
      exact ⟨u, hsu, by simp [dout, hidle]⟩
  · rw [Config.frameCyc]
    omega
  · exact ⟨_, step_of_transmit (hsu.keeps_cfg ▸ hl) hu, rfl⟩

/-! ## What ends a frame (R142) -/

theorem stepHigh_keeps_busy {s : State} (hp : s.phase ≠ .idle) : (stepHigh s).phase ≠ .idle := by
  obtain ⟨-, h⟩ | ⟨-, h⟩ := stepHigh_cases s
  · rw [h]; exact hp
  · simp [h]

theorem stepLow_keeps_busy {s t : State} (h : stepLow s = .next t) (hp : s.phase ≠ .idle) : t.phase ≠ .idle := by
  obtain ⟨-, h'⟩ | ⟨-, -, h'⟩ | ⟨-, -, nb, nk, -, ⟨-, h'⟩ | ⟨-, h'⟩⟩ := stepLow_cases s <;> rw [h'] at h
  · cases h; exact hp
  · cases h; simp
  · cases h; simp
  · exact absurd h (by simp)

/-- A step that ends a frame is a reset or the last cycle of its gap. -/
theorem frame_end_cases {s t : State} (hst : step s = .next t) (hbusy : busy s = true) (hidle : busy t = false) :
    s.input.rst = true ∨ (s.phase = .resetGap ∧ s.cnt.toNat = 0) := by
  have hs : s.nextCycle.phase ≠ .idle := busy_iff.mp hbusy
  have ht : ¬ t.phase ≠ .idle := mt busy_iff.mpr (by simp [hidle])
  obtain ⟨-, ⟨hr, -⟩ | ⟨-, ⟨hp, -⟩ | ⟨-, rfl⟩ | ⟨-, hlow⟩ | ⟨hp, rfl⟩⟩⟩ := step_cases hst
  · exact .inl hr
  · exact absurd hp hs
  · exact absurd (stepHigh_keeps_busy hs) ht
  · exact absurd (stepLow_keeps_busy hlow hs) ht
  · obtain ⟨-, h⟩ | ⟨hz, -⟩ := stepGap_cases s.nextCycle
    · rw [h] at ht
      exact absurd hs ht
    · exact .inr ⟨hp, hz⟩

/-- Settles O26: a busy block is not ready, so its step reads `RST` alone; and a reset enters IDLE. -/
theorem onlyResetEndsAFrameEarly : Obligations.OnlyResetEndsAFrameEarly := by
  unfold Obligations.OnlyResetEndsAFrameEarly
  intro s hbusy
  refine ⟨fun valid w => ?_, fun t hst => frame_end_cases hst hbusy, fun hl hr => ⟨_, step_of_rst hl hr, rfl⟩⟩
  exact step_withInput_of_not_ready (cmdReady_of_busy hbusy)
    (inp := { s.input with cmdValid := valid, cmdWord := w }) rfl

end Sys2Proof.Machine
end

section
/-! The statements about rejected commands (60_exceptions.md R171 to R173): the causes of a rejection, which of them takes
precedence, and that a rejection writes `RESULT` alone. -/

namespace Sys2Proof

open Laws.EncodedRow (opcodeOf)

/-- R75: a word whose opcode is none of the four commands' is reserved, whatever its `RSV` is. -/
theorem decode_reserved_of_fieldOp {w : CmdWord} (h : fieldOp w ∉ [(1 : BitVec 4), 2, 3, 4]) :
    ∃ why, decode w = .reserved why := by
  cases hd : decode w with
  | reserved why => exact ⟨why, rfl⟩
  | command i =>
    have hmem : opcodeOf i ∈ [(1 : BitVec 4), 2, 3, 4] := by cases i <;> simp [opcodeOf]
    exact absurd hmem (fieldOp_of_decode hd ▸ h)

end Sys2Proof

namespace Sys2Proof.Machine

/-! ## The invalid arguments (R171) -/

section
variable {c : Config} {p : Bool} {r g b : Byte}

theorem commandResult_setcolor_eq_invalidArg {pos : Nat} :
    commandResult c (.command (.setcolor p r g b pos)) = .invalidArg ↔ p = false ∨ c.n ≤ pos := by
  simp [commandResult, imp_iff_not_or]

theorem commandResult_setrange_eq_invalidArg {a e : Nat} :
    commandResult c (.command (.setrange p r g b a e)) = .invalidArg ↔
      p = false ∨ c.n ≤ a ∨ c.n ≤ e ∨ a = e := by
  simp [commandResult, imp_iff_not_or]

end

/-! ## What a rejected command does (R172) -/

/-- On a block with a buffer every command answers a next state. -/
theorem exec_next_of_nbytes_pos {s : State} (hn : 0 < s.cfg.nbytes) (i : Instr) : ∃ t, exec i s = .next t := by
  have hbuffer : isBufferCommand i = true → ∃ t, exec i s = .next t := fun hi => by
    obtain ⟨m, res, hexec⟩ := exec_of_isBufferCommand hi s
    exact ⟨_, hexec⟩
  cases i with
  | clear | setcolor | setrange => exact hbuffer rfl
  | transmit p =>
    cases p
    case false => exact ⟨_, execTransmit_false s⟩
    case true => exact ⟨_, execTransmit_true hn⟩

theorem exec_of_rejected {s : State} {i : Instr} (hn : 0 < s.cfg.nbytes)
    (hrej : commandResult s.cfg (.command i) ≠ .ok) :
    exec i s = .next { s with result := commandResult s.cfg (.command i) } := by
  obtain ⟨t, ht⟩ := exec_next_of_nbytes_pos hn i
  obtain ⟨hres, rfl⟩ | ⟨-, hok, -⟩ | ⟨rfl, -, -⟩ := exec_cases ht
  · rw [ht, hres]
    rfl
  · exact absurd hok hrej
  · exact absurd rfl hrej

theorem executeWord_of_rejected {s : State} {w : CmdWord} (hn : 0 < s.cfg.nbytes)
    (hrej : commandResult s.cfg (decode w) ≠ .ok) :
    executeWord w s = .next { s with result := commandResult s.cfg (decode w) } := by
  cases hd : decode w with
  | reserved why => exact executeWord_of_reserved hd s
  | command i =>
    simp only [executeWord, hd]
    exact exec_of_rejected hn (hd ▸ hrej)

/-- `RESULT` is read by no command and written by every one. -/
theorem exec_setResult (i : Instr) (r : ResultCode) (s : State) : exec i (s.setResult r) = exec i s := by
  cases i <;> rfl

section
variable {s : State} (hl : s.cfg.Legal)
include hl

theorem step_of_rejected (hacc : accepted s = true) (hrej : commandResult s.cfg (decode s.input.cmdWord) ≠ .ok) :
    step s = .next { s.nextCycle with result := commandResult s.cfg (decode s.input.cmdWord) } :=
  (step_of_accepted hl hacc).trans (executeWord_of_rejected (s := s.nextCycle) hl.nbytes_pos hrej)

theorem step_of_reserved (hacc : accepted s = true) {why : ReservedWhy}
    (h : decode s.input.cmdWord = .reserved why) : step s = .next { s.nextCycle with result := .invalidCmd } :=
  (step_of_accepted hl hacc).trans (executeWord_of_reserved h s.nextCycle)

theorem step_of_invalidArg {i : Instr} (h : Takes s i) (harg : commandResult s.cfg (.command i) = .invalidArg) :
    step s = .next { s.nextCycle with result := .invalidArg } := by
  obtain ⟨hacc, hdec⟩ := h
  rw [← harg, ← hdec]
  exact step_of_rejected hl hacc (by simp [hdec, harg])

theorem step_of_performed {i : Instr} (h : Takes s i) (hok : commandResult s.cfg (.command i) = .ok) :
    ∃ t, step s = .next t ∧ t.result = .ok := by
  obtain ⟨t, ht⟩ := exec_next_of_nbytes_pos (s := s.nextCycle) hl.nbytes_pos i
  exact ⟨t, (step_of_takes hl h).trans ht, (exec_result ht).trans hok⟩

end

theorem accepted_of_rst {s : State} (hr : s.input.rst = true) : accepted s = false := by
  simp [accepted, cmdReady, hr]

/-! ## The obligations -/

/-- Settles O7: a reset accepts nothing, a reserved word has no arguments to check, and a command's causes are its row of
the table of outcomes. -/
theorem causesOfRejection : Obligations.CausesOfRejection := by
  unfold Obligations.CausesOfRejection
  refine fun s hl => ⟨fun hr => ⟨accepted_of_rst hr, step_of_rst hl hr⟩, fun hacc => ⟨fun hrsv => ?_, fun hop => ?_, ?_⟩⟩
  · exact step_of_reserved hl hacc (decode_of_rsv_ne_zero hrsv)
  · obtain ⟨why, hwhy⟩ := decode_reserved_of_fieldOp hop
    exact step_of_reserved hl hacc hwhy
  · intro i hdec
    have hinvalid := step_of_invalidArg hl ⟨hacc, hdec⟩
    refine ⟨?clear, ?transmit, ?setcolor, ?setrange, step_of_performed hl ⟨hacc, hdec⟩⟩
    case clear => rintro rfl; exact hinvalid rfl
    case transmit => rintro rfl; exact hinvalid rfl
    case setcolor => rintro p r g b pos rfl hcause; exact hinvalid (commandResult_setcolor_eq_invalidArg.mpr hcause)
    case setrange => rintro p r g b a e rfl hcause; exact hinvalid (commandResult_setrange_eq_invalidArg.mpr hcause)

/-- Settles O8: the accepting cycle was idle and the rejection leaves `PHASE` alone; what a command does does not depend on
the `RESULT` it finds. -/
theorem rejectionWritesOnlyTheResult : Obligations.RejectionWritesOnlyTheResult := by
  unfold Obligations.RejectionWritesOnlyTheResult
  intro s hl hacc hrej
  have hidle : s.phase = .idle := (cmdReady_iff.mp (accepted_iff.mp hacc).2).1
  have hstep := step_of_rejected hl hacc hrej
  refine ⟨_, hstep, rfl, hidle, by simp [dout, hidle], fun hr => cmdReady_iff.mpr ⟨hidle, ?_⟩,
    fun i => exec_setResult i _ s.nextCycle⟩
  rwa [(After.one hstep).input]

end Sys2Proof.Machine
end

section
/-! Block reset (70_reset_and_hazards.md R190, R192): what it sets in any phase, and what follows a reset that cuts a frame
short. -/

namespace Sys2Proof.Machine

/-! ## The cycle after a reset (R190) -/

/-- Settles O44: the reset step reads nothing but `RST`, and the idle state it answers is ready unless `RST` is 1 again. -/
theorem blockResetSetsTheRegisters : Obligations.BlockResetSetsTheRegisters := by
  unfold Obligations.BlockResetSetsTheRegisters
  intro s hl hr
  have hstep := step_of_rst hl hr
  refine ⟨by simp [cmdReady, hr], accepted_of_rst hr, _, hstep, rfl, rfl, status_of_idle_ok rfl rfl,
    fun hr1 => cmdReady_iff.mpr ⟨rfl, ?_⟩⟩
  rwa [(After.one hstep).input]

/-! ## An idle block starts no frame of its own (R192) -/

theorem dout_of_idle {s : State} (hp : s.phase = .idle) : dout s = false := by simp [dout, hp]

/-- Of all commands only a performed TRANSMIT writes `PHASE`. -/
theorem exec_keeps_phase {i : Instr} {s t : State} (h : exec i s = .next t) (hi : i ≠ .transmit true) :
    t.phase = s.phase := by
  obtain ⟨-, rfl⟩ | ⟨-, -, m, rfl, -, -⟩ | ⟨htransmit, -, -⟩ := exec_cases h
  · rfl
  · rfl
  · exact absurd htransmit hi

/-- From IDLE a cycle resets, waits, rejects a reserved word or executes a command; only TRANSMIT leaves IDLE. -/
theorem step_keeps_idle {s t : State} (h : step s = .next t) (hp : s.phase = .idle)
    (hno : ¬ Takes s (.transmit true)) : t.phase = .idle := by
  obtain ⟨-, ⟨-, rfl⟩ | ⟨hr, ⟨-, ⟨-, rfl⟩ | ⟨hv, ⟨-, -, rfl⟩ | ⟨i, hdec, hexec⟩⟩⟩ | ⟨hp', -⟩ | ⟨hp', -⟩ | ⟨hp', -⟩⟩⟩ :=
    step_cases h
  · rfl
  · exact hp
  · exact hp
  · have hacc : accepted s = true := accepted_iff.mpr ⟨hv, cmdReady_iff.mpr ⟨hp, hr⟩⟩
    have hi : i ≠ .transmit true := fun hi => hno ⟨hacc, hi ▸ hdec⟩
    exact (exec_keeps_phase hexec hi).trans hp
  all_goals simp [hp] at hp'

theorem After.keeps_idle {k : Nat} {s u : State} (h : After k s u) (hp : s.phase = .idle)
    (hno : ∀ j v, j < k → After j s v → ¬ Takes v (.transmit true)) : u.phase = .idle := by
  induction k generalizing u with
  | zero => exact h.unique (.zero s) ▸ hp
  | succ k ih =>
    obtain ⟨v, hsv, hvu⟩ := h.succ_last
    have hv := ih hsv fun j w hj => hno j w (hj.trans k.lt_succ_self)
    exact step_keeps_idle hvu hv (hno k v k.lt_succ_self hsv)

/-- Settles O46: the reset leaves the block idle with its buffer, IDLE is left by a TRANSMIT alone, and that TRANSMIT's frame
is one like any other. -/
theorem resetAbortsTheFrame : Obligations.ResetAbortsTheFrame := by
  unfold Obligations.ResetAbortsTheFrame
  intro s hl _ hr
  refine ⟨_, step_of_rst hl hr, rfl, rfl, rfl, fun k u hu hno => ?_, fun htakes hquiet => ?_⟩
  · have hidle := hu.keeps_idle rfl hno
    exact ⟨hidle, dout_of_idle hidle⟩
  · exact doutTrace_of_transmit (s := blockReset s.nextCycle) hl htakes hquiet

end Sys2Proof.Machine
end

section
/-! Decoding an encoded command, words of the spec's tables, and the lines of a listing (30_encoding.md R70 to R79). -/

namespace Sys2Proof

/-! ## Decode after encode (R70, R73) -/

/-- Each field `decode` reads of an encoded command is the operand packed there, where a position fits its field. -/
theorem decode_encode {i : Instr} (hwf : i.wf = true) : decode (encode i) = .command i := by
  rw [decode_command_iff]
  cases i with
  | clear p => simp [encode]
  | setcolor p r g b pos =>
    have hpos : pos < indexBound := by simpa [Instr.wf] using hwf
    simp [encode, fieldA_packWord, hpos]
  | setrange p r g b start stop =>
    have hspan : start < indexBound ∧ stop < indexBound := by simpa [Instr.wf] using hwf
    simp [encode, fieldA_packWord, fieldE_packWord, hspan]
  | transmit p => simp [encode]

/-- Settles O1: the fields of the packed word read back. -/
theorem decodeOfEncodeIsTheCommand : Obligations.DecodeOfEncodeIsTheCommand := by
  unfold Obligations.DecodeOfEncodeIsTheCommand
  exact fun _ => decode_encode

/-- Settles O5: `decode` computes. -/
theorem sampleWordsDecode : Obligations.SampleWordsDecode := by
  unfold Obligations.SampleWordsDecode
  decide

/-- Every encoded command has `RSV = 0` (R77). -/
theorem fieldRsv_encode (i : Instr) : fieldRsv (encode i) = 0 := by
  cases i <;> exact fieldRsv_packWord ..

theorem Instr.wf_setcolor_iff {p : Bool} {r g b : Byte} {pos : Nat} :
    (Instr.setcolor p r g b pos).wf = true ↔ pos < 65536 := by
  simp [Instr.wf]

theorem Instr.wf_setrange_iff {p : Bool} {r g b : Byte} {start stop : Nat} :
    (Instr.setrange p r g b start stop).wf = true ↔ start < 65536 ∧ stop < 65536 := by
  simp [Instr.wf]

end Sys2Proof

namespace Sys2Proof.Machine

/-! ## The lines of a listing (R77) -/

theorem coloursFit_iff {r g b : Nat} : coloursFit r g b = true ↔ r < 256 ∧ g < 256 ∧ b < 256 := by
  simp [coloursFit, and_assoc]

/-- The command of a SETCOLOR line. -/
def setcolorOf (nobuf : Bool) (r g b pos : Nat) : Instr :=
  .setcolor (!nobuf) (BitVec.ofNat 8 r) (BitVec.ofNat 8 g) (BitVec.ofNat 8 b) pos

/-- The command of a SETRANGE line. -/
def setrangeOf (nobuf : Bool) (r g b start stop : Nat) : Instr :=
  .setrange (!nobuf) (BitVec.ofNat 8 r) (BitVec.ofNat 8 g) (BitVec.ofNat 8 b) start stop

theorem assembleLine_setcolor (nobuf : Bool) (r g b pos : Nat) :
    assembleLine (.setcolor nobuf r g b pos) =
      if r < 256 ∧ g < 256 ∧ b < 256 ∧ pos < 65536 then some [encode (setcolorOf nobuf r g b pos)] else none := by
  rw [assembleLine_of_expand rfl]
  simp only [AsmLine.word?, Bool.and_eq_true, coloursFit_iff, Instr.wf_setcolor_iff, and_assoc,
    apply_ite (Option.map _), Option.map_some, Option.map_none, setcolorOf]

theorem assembleLine_setrange (nobuf : Bool) (r g b start stop : Nat) :
    assembleLine (.setrange nobuf r g b start stop) =
      if r < 256 ∧ g < 256 ∧ b < 256 ∧ start < 65536 ∧ stop < 65536 then
        some [encode (setrangeOf nobuf r g b start stop)]
      else none := by
  rw [assembleLine_of_expand rfl]
  simp only [AsmLine.word?, Bool.and_eq_true, coloursFit_iff, Instr.wf_setrange_iff, and_assoc,
    apply_ite (Option.map _), Option.map_some, Option.map_none, setrangeOf]

/-- Settles O50: the operand checks of a line are one condition, which holds or fails as a whole; CLEAR and TRANSMIT
lines have four words in all. -/
theorem assemblerChecksItsOperands : Obligations.AssemblerChecksItsOperands := by
  unfold Obligations.AssemblerChecksItsOperands
  intro nobuf r g b pos a e w
  refine ⟨?setcolor, ?setcolorRefused, ?setrange, ?setrangeRefused, ?clear, ?transmit, rfl⟩
  case setcolor =>
    rintro hr hg hb hpos _ rfl
    exact ⟨(assembleLine_setcolor ..).trans (if_pos ⟨hr, hg, hb, hpos⟩),
      decode_encode (Instr.wf_setcolor_iff.mpr hpos), fieldRsv_encode _, fieldE_packWord _ _ _ _ _ _ _ (by decide)⟩
  case setcolorRefused => exact fun h => (assembleLine_setcolor ..).trans (if_neg (by omega))
  case setrange =>
    rintro hr hg hb ha he _ rfl
    exact ⟨(assembleLine_setrange ..).trans (if_pos ⟨hr, hg, hb, ha, he⟩),
      decode_encode (Instr.wf_setrange_iff.mpr ⟨ha, he⟩), fieldRsv_encode _⟩
  case setrangeRefused => exact fun h => (assembleLine_setrange ..).trans (if_neg (by omega))
  case clear =>
    rintro _ rfl
    exact ⟨rfl, decode_encode rfl, by cases nobuf <;> decide⟩
  case transmit =>
    rintro _ rfl
    exact ⟨rfl, decode_encode rfl, by cases nobuf <;> decide⟩

end Sys2Proof.Machine
end

section
/-! The invariant (10_state.md R26, 20_memory.md R50): it holds after a reset, every step keeps it, and no run that
starts in it stops. -/

namespace Sys2Proof.Machine

/-! ## The position in each phase (R26) -/

section
variable {s : State}

theorem positionOk_of_idle (hp : s.phase = .idle) : PositionOk s := by simp [PositionOk, hp]

theorem positionOk_emitHigh_iff (hp : s.phase = .emitHigh) :
    PositionOk s ↔
      s.byteIdx.toNat < s.cfg.nbytes ∧ s.cur = currentBit s ∧ s.cnt.toNat < s.cfg.highCyc s.cur := by
  simp [PositionOk, hp]

theorem positionOk_emitLow_iff (hp : s.phase = .emitLow) :
    PositionOk s ↔ s.byteIdx.toNat < s.cfg.nbytes ∧ s.cur = currentBit s ∧ s.cnt.toNat < s.cfg.lowCyc s.cur := by
  simp [PositionOk, hp]

theorem positionOk_resetGap_iff (hp : s.phase = .resetGap) : PositionOk s ↔ s.cnt.toNat < s.cfg.resetCyc := by
  simp [PositionOk, hp]

/-! ## What the sequencer's operations do to the position -/

/-- Counting down stays below the phase's length. -/
theorem PositionOk.setCnt_pred (h : PositionOk s) : PositionOk (s.setCnt (s.cnt.toNat - 1)) := by
  have hle : (s.setCnt (s.cnt.toNat - 1)).cnt.toNat ≤ s.cnt.toNat :=
    (State.setCnt_cnt_toNat (by omega)).trans_le (Nat.sub_le _ 1)
  cases hp : s.phase with
  | idle => exact positionOk_of_idle hp
  | emitHigh =>
    obtain ⟨hbyte, hcur, hlt⟩ := (positionOk_emitHigh_iff hp).mp h
    exact (positionOk_emitHigh_iff ((s.setCnt_phase _).trans hp)).mpr ⟨hbyte, hcur, hle.trans_lt hlt⟩
  | emitLow =>
    obtain ⟨hbyte, hcur, hlt⟩ := (positionOk_emitLow_iff hp).mp h
    exact (positionOk_emitLow_iff ((s.setCnt_phase _).trans hp)).mpr ⟨hbyte, hcur, hle.trans_lt hlt⟩
  | resetGap =>
    have hlt := (positionOk_resetGap_iff hp).mp h
    exact (positionOk_resetGap_iff ((s.setCnt_phase _).trans hp)).mpr (hle.trans_lt hlt)

/-- A bit that starts inside the buffer, with its value there, is within the bounds of EMIT_HIGH. -/
theorem positionOk_startBit (hl : s.cfg.Legal) {i k : Nat} (hi : i < s.cfg.nbytes) (hk : k ≤ 7) :
    PositionOk (startBit i k ((s.buf.readByte i).getLsbD k) s) := by
  obtain ⟨hbyte, hbit, hcnt⟩ := startBit_position hl hi hk ((s.buf.readByte i).getLsbD k)
  have hpos := hl.highCyc_pos ((s.buf.readByte i).getLsbD k)
  refine (positionOk_emitHigh_iff rfl).mpr ⟨hbyte.symm ▸ hi, ?_, ?_⟩
  · rw [currentBit, hbyte, hbit]
    rfl
  · rw [hcnt]
    exact Nat.sub_one_lt_of_lt hpos

theorem positionOk_stepHigh (hl : s.cfg.Legal) (hp : s.phase = .emitHigh) (h : PositionOk s) :
    PositionOk (stepHigh s) := by
  obtain ⟨-, heq⟩ | ⟨-, heq⟩ := stepHigh_cases s <;> rw [heq]
  · exact h.setCnt_pred
  · obtain ⟨hbyte, hcur, -⟩ := (positionOk_emitHigh_iff hp).mp h
    have hpos := hl.lowCyc_pos s.cur
    have hlt := hl.lowCyc_lt s.cur
    refine (positionOk_emitLow_iff rfl).mpr ⟨hbyte, hcur, ?_⟩
    rw [State.setCnt_cnt_toNat (by omega)]
    exact Nat.sub_one_lt_of_lt hpos

theorem positionOk_stepLow {t : State} (hl : s.cfg.Legal) (h : PositionOk s) (hst : stepLow s = .next t) :
    PositionOk t := by
  obtain ⟨-, heq⟩ | ⟨-, -, heq⟩ | ⟨-, -, nb, nk, hnext, ⟨hnb, heq⟩ | ⟨-, heq⟩⟩ := stepLow_cases s <;> rw [heq] at hst
  · cases hst
    exact h.setCnt_pred
  · cases hst
    have hpos := hl.resetCyc_pos
    have hlt := hl.resetCyc_lt
    refine (positionOk_resetGap_iff rfl).mpr ?_
    rw [State.setCnt_cnt_toNat (by omega)]
    exact Nat.sub_one_lt_of_lt hpos
  · cases hst
    have hnk := (nextBit_place (i := s.byteIdx.toNat) (k := s.bitIdx.toNat) (by omega)).2
    rw [hnext] at hnk
    exact positionOk_startBit hl hnb hnk
  · cases hst

theorem positionOk_stepGap (h : PositionOk s) : PositionOk (stepGap s) := by
  obtain ⟨-, heq⟩ | ⟨-, heq⟩ := stepGap_cases s <;> rw [heq]
  · exact h.setCnt_pred
  · exact positionOk_of_idle rfl

/-! ## What keeps the invariant -/

/-- With the parameters and the buffer unchanged, only the position is left to check. -/
theorem Inv.of_position {t : State} (h : Inv s) (hcfg : t.cfg = s.cfg) (hbuf : t.buf = s.buf) (hpos : PositionOk t) :
    Inv t where
  legal := hcfg ▸ h.legal
  bufWf := hbuf ▸ h.bufWf
  bufWithin := by rw [hcfg, hbuf]; exact h.bufWithin
  position := hpos

theorem Inv.nextCycle (h : Inv s) : Inv s.nextCycle := h.of_position rfl rfl h.position

theorem Inv.setResult (h : Inv s) (r : ResultCode) : Inv (s.setResult r) := h.of_position rfl rfl h.position

/-- A command executed in IDLE is rejected, writes the buffer in canonical form, or starts a frame at byte 0. -/
theorem Inv.exec {t : State} (h : Inv s) (hp : s.phase = .idle) {i : Instr} (hexec : exec i s = .next t) : Inv t := by
  obtain ⟨-, rfl⟩ | ⟨-, -, m, rfl, hwf, hwithin⟩ | ⟨-, hn, rfl⟩ := exec_cases hexec
  · exact h.setResult _
  · exact ⟨h.legal, hwf h.bufWf, hwithin h.bufWithin, positionOk_of_idle hp⟩
  · exact Inv.setResult (h.of_position (t := startBit 0 7 _ s) rfl rfl (positionOk_startBit h.legal hn le_rfl)) .ok

/-- The cases of a cycle, one of the lemmas above for each. -/
theorem Inv.step {t : State} (h : Inv s) (hst : step s = .next t) : Inv t := by
  have hs := h.nextCycle
  obtain ⟨hl, ⟨-, rfl⟩ | ⟨-, ⟨hp, ⟨-, rfl⟩ | ⟨-, ⟨-, -, rfl⟩ | ⟨i, -, hexec⟩⟩⟩ | ⟨hp, rfl⟩ | ⟨-, hlow⟩ | ⟨-, rfl⟩⟩⟩ :=
    step_cases hst
  · exact hs.of_position rfl rfl (positionOk_of_idle rfl)
  · exact hs
  · exact hs.setResult _
  · exact hs.exec hp hexec
  · obtain ⟨hcfg, -, hbuf, -⟩ := stepHigh_keeps s.nextCycle
    exact hs.of_position hcfg hbuf (positionOk_stepHigh hl hp hs.position)
  · obtain ⟨hcfg, -, hbuf, -⟩ := stepLow_keeps hlow
    exact hs.of_position hcfg hbuf (positionOk_stepLow (s := s.nextCycle) hl hs.position hlow)
  · obtain ⟨hcfg, -, hbuf, -⟩ := stepGap_keeps s.nextCycle
    exact hs.of_position hcfg hbuf (positionOk_stepGap hs.position)

/-- Settles O36: by the cases of a cycle. -/
theorem stepKeepsTheInvariant : Obligations.StepKeepsTheInvariant := by
  unfold Obligations.StepKeepsTheInvariant
  exact fun _ _ => Inv.step

theorem inv_resetOf {c : Config} (hl : c.Legal) (bufInit : List Byte) (ins : List PortInput) :
    Inv (State.resetOf c bufInit ins) :=
  ⟨hl, Memory.ofBytes_wf _ _, Memory.ofBytes_within _ _, positionOk_of_idle rfl⟩

/-- Settles O47: the power-on contents are put into canonical form, and IDLE asks nothing of the position. -/
theorem resetMeetsTheInvariant : Obligations.ResetMeetsTheInvariant := by
  unfold Obligations.ResetMeetsTheInvariant
  have htoy : (Config.toy 8).Legal := Config.toy_legal (by decide) (by decide)
  exact ⟨fun _ bufInit ins hl => inv_resetOf hl bufInit ins, inv_resetOf htoy [] []⟩

/-! ## No step stops -/

theorem executeWord_next_of_nbytes_pos (hn : 0 < s.cfg.nbytes) (w : CmdWord) : ∃ t, executeWord w s = .next t := by
  cases hd : decode w with
  | reserved why => exact ⟨_, executeWord_of_reserved hd s⟩
  | command i => simpa only [executeWord, hd] using exec_next_of_nbytes_pos hn i

/-- An accepted word never stops the block: a legal configuration has a byte 0. -/
theorem step_next_of_accepted (hl : s.cfg.Legal) (hacc : accepted s = true) : ∃ t, step s = .next t :=
  step_of_accepted hl hacc ▸ executeWord_next_of_nbytes_pos (s := s.nextCycle) hl.nbytes_pos _

theorem step_next_of_idle (hl : s.cfg.Legal) (hr : s.input.rst = false) (hp : s.phase = .idle) :
    ∃ t, step s = .next t := by
  cases hv : s.input.cmdValid with
  | false => exact ⟨_, step_of_quiet hl hr hp hv⟩
  | true => exact step_next_of_accepted hl (accepted_iff.mpr ⟨hv, cmdReady_iff.mpr ⟨hp, hr⟩⟩)

/-- Only StepLow could stop, and it is at a bit inside the buffer. -/
theorem Inv.step_next (h : Inv s) : ∃ t, Machine.step s = .next t := by
  have hl := h.legal
  cases hr : s.input.rst with
  | true => exact ⟨_, step_of_rst hl hr⟩
  | false =>
    cases hp : s.phase with
    | idle => exact step_next_of_idle hl hr hp
    | emitHigh => exact ⟨_, step_of_emitHigh hl hr hp⟩
    | resetGap => exact ⟨_, step_of_resetGap hl hr hp⟩
    | emitLow =>
      obtain ⟨hbyte, -, -⟩ := (positionOk_emitLow_iff hp).mp h.position
      obtain hz | hpos := Nat.eq_zero_or_pos s.cnt.toNat
      · obtain ⟨t, hst, -⟩ := step_low_last hl hr hp hbyte hz
        exact ⟨t, hst⟩
      · exact ⟨_, step_of_cnt_pos hl hr (by simp [hp]) hpos⟩

theorem Inv.after (h : Inv s) (k : Nat) : ∃ t, After k s t ∧ Inv t := by
  induction k with
  | zero => exact ⟨s, .zero s, h⟩
  | succ k ih =>
    obtain ⟨t, hrun, ht⟩ := ih
    obtain ⟨u, hst⟩ := ht.step_next
    exact ⟨u, hrun.add (.one hst), ht.step hst⟩

end

/-- Settles O37: a step from the invariant answers a next state, which meets it again. -/
theorem noRunStops : Obligations.NoRunStops := by
  unfold Obligations.NoRunStops
  exact fun _ h => ⟨h.step_next, h.after⟩

/-! ## The one fault (log 7) -/

theorem exec_transmit_of_no_leds {s : State} (hn : s.cfg.n = 0) :
    exec (.transmit true) s = .fault .bufferOffsetOutOfRange := by
  simp [exec, execTransmit, State.bufBit?, Config.nbytes, hn]

/-- StepLow faults where the next bit lies outside the buffer. -/
theorem step_low_of_nextBit_outside {s : State} (hl : s.cfg.Legal) (hr : s.input.rst = false) (hp : s.phase = .emitLow)
    (hz : s.cnt.toNat = 0) (hlast : lastBit s.cfg s.byteIdx.toNat s.bitIdx.toNat = false)
    (hout : s.cfg.nbytes ≤ (nextBit s.byteIdx.toNat s.bitIdx.toNat).1) :
    step s = .fault .bufferOffsetOutOfRange := by
  rw [step_of_emitLow hl hr hp]
  obtain ⟨hpos, -⟩ | ⟨-, hlast', -⟩ | ⟨-, -, nb, nk, hnext, ⟨hin, -⟩ | ⟨-, hfault⟩⟩ := stepLow_cases s.nextCycle
  · exact absurd hz hpos.ne'
  · exact absurd hlast' (by simp [hlast])
  · rw [State.nextCycle_byteIdx, State.nextCycle_bitIdx] at hnext
    rw [hnext] at hout
    exact absurd hin (not_lt.mpr hout)
  · exact hfault

/-- Settles O38: the two places that read a bit of the buffer; from the invariant every step answers a next state. -/
theorem bitOutsideTheBufferFaults : Obligations.BitOutsideTheBufferFaults := by
  unfold Obligations.BitOutsideTheBufferFaults
  refine ⟨fun _ => exec_transmit_of_no_leds, fun _ => step_low_of_nextBit_outside, fun s f h hfault => ?_⟩
  obtain ⟨t, hst⟩ := h.step_next
  simp [hst] at hfault

end Sys2Proof.Machine
end

section
/-! The cycle that accepts a command: what it runs and leaves, and when the next command can follow
(40_buffer_commands.md R100, 41_encoder.md R130, 20_memory.md R52, R61, 70_reset_and_hazards.md R194, R199). -/

namespace Sys2Proof.Machine

/-! ## The accepted command (R100, R131) -/

/-- The word given to `withFetchWord` is presented in this cycle, and IDLE accepts it (log 5). -/
theorem takes_withFetchWord {w : CmdWord} {i : Instr} (h : decode w = .command i) (s : State) :
    Takes (s.withFetchWord 64 w.toNat) i := by
  have hword : (s.withFetchWord 64 w.toNat).input.cmdWord = w := by
    show BitVec.ofNat 64 (w.toNat % 2 ^ 64) = w
    rw [Nat.mod_eq_of_lt w.isLt, BitVec.ofNat_toNat, BitVec.setWidth_eq]
  exact ⟨rfl, hword.symm ▸ h⟩

/-- Settles O6: the three ways an idle cycle without reset goes, and what `withFetchWord` presents. -/
theorem stepRunsTheAcceptedCommand : Obligations.StepRunsTheAcceptedCommand := by
  unfold Obligations.StepRunsTheAcceptedCommand
  exact ⟨fun _ _ => step_of_takes, fun _ _ hl hacc => step_of_reserved hl hacc,
    fun _ hl hp hr => step_of_quiet hl hr hp, fun s _ _ h => takes_withFetchWord h s⟩

/-- Settles O17: the five writes of `startBit` at bit 7 of byte 0, which every legal configuration has. -/
theorem transmitStartsAFrame : Obligations.TransmitStartsAFrame := by
  unfold Obligations.TransmitStartsAFrame
  refine ⟨by decide, fun s hl => ⟨⟨_, execTransmit_true hl.nbytes_pos, rfl, ?_⟩, execTransmit_false s⟩⟩
  exact (startBit_position hl hl.nbytes_pos le_rfl _).2.2

/-- Settles O30: a cycle that performs no buffer command keeps the buffer. -/
theorem onlyPerformedBufferCommandsWrite : Obligations.OnlyPerformedBufferCommandsWrite := by
  unfold Obligations.OnlyPerformedBufferCommandsWrite
  intro s t hst hbuf
  by_contra hno
  exact hbuf (step_keeps_buf_of_performsNoBufferCommand hst fun i htakes hi hok => hno ⟨i, htakes, hi, hok⟩)

/-! ## The next command (R61, R198) -/

/-- An idle block whose host presents a word without reset accepts it. -/
theorem accepted_of_idle {s : State} (hp : s.phase = .idle) (hr : s.input.rst = false)
    (hv : s.input.cmdValid = true) : accepted s = true :=
  accepted_iff.mpr ⟨hv, cmdReady_iff.mpr ⟨hp, hr⟩⟩

theorem idle_of_accepted {s : State} (h : accepted s = true) : s.phase = .idle :=
  (cmdReady_iff.mp (accepted_iff.mp h).2).1

/-- Settles O33: a buffer command answers a next state that is idle again, on the inputs of the next cycle. -/
theorem commandsTakeEffectInOrder : Obligations.CommandsTakeEffectInOrder := by
  unfold Obligations.CommandsTakeEffectInOrder
  intro s i i' hl htakes hi hr hv hdec
  obtain ⟨m, res, hexec⟩ := exec_of_isBufferCommand hi s.nextCycle
  have hst := (step_of_takes hl htakes).trans hexec
  have hinput := (After.one hst).input
  have hidle : s.phase = .idle := idle_of_accepted htakes.1
  have htakes' : Takes { s.nextCycle with buf := m, result := res } i' :=
    ⟨accepted_of_idle hidle (hinput ▸ hr) (hinput ▸ hv), hinput ▸ hdec⟩
  obtain ⟨u, hexec'⟩ := exec_next_of_nbytes_pos
    (s := State.nextCycle { s.nextCycle with buf := m, result := res }) hl.nbytes_pos i'
  have hst' := (step_of_takes (s := { s.nextCycle with buf := m, result := res }) hl htakes').trans hexec'
  exact ⟨_, u, hexec, htakes', hexec', .of_step hst (.one hst')⟩

/-! ## The command held during a frame (R194) -/

/-- A run that accepts nothing and is not reset writes neither the buffer nor `RESULT`. -/
theorem After.keeps_buf_result {k : Nat} {s u : State} (h : After k s u) (hr : NoResetBefore s k)
    (hno : ∀ j v, j < k → After j s v → accepted v = false) : u.buf = s.buf ∧ u.result = s.result := by
  induction k generalizing u with
  | zero => exact h.unique (.zero s) ▸ ⟨rfl, rfl⟩
  | succ k ih =>
    obtain ⟨v, hsv, hvu⟩ := h.succ_last
    obtain ⟨hbuf, hres⟩ := ih hsv (hr.mono k.le_succ) fun j w hj => hno j w (hj.trans k.lt_succ_self)
    have hacc := hno k v k.lt_succ_self hsv
    have hrst := (hr.of_after hsv).input_rst one_pos
    exact ⟨(step_keeps_buf hvu hacc).trans hbuf, (step_keeps_result hvu hacc hrst).trans hres⟩

/-- In the cycle after a frame the block is idle, with the buffer and the `RESULT` of the TRANSMIT. -/
theorem after_frame_of_transmit {s : State} (hl : s.cfg.Legal) (htakes : Takes s (.transmit true))
    (hr : NoResetThrough s s.cfg.frameCyc) :
    ∃ u, After (s.cfg.frameCyc + 1) s u ∧ u.phase = .idle ∧ u.buf = s.buf ∧ u.result = .ok := by
  obtain ⟨u, hsu, hidle⟩ := idle_of_transmit hl htakes hr
  have hst := step_of_transmit hl htakes
  obtain ⟨t, hst', htu⟩ := hsu.succ_cases
  obtain rfl := (After.one hst).unique (.one hst')
  obtain ⟨-, -, hbusy, -⟩ := frameIsBusyForFrameCyc s hl htakes hr
  obtain ⟨hbuf, hres⟩ := htu.keeps_buf_result ((hr.before le_rfl).of_step hst) fun j v hj hv => by
    obtain ⟨v', hv', -, -, hacc⟩ := hbusy (j + 1) (by omega) hj
    exact (After.of_step hst hv).unique hv' ▸ hacc
  exact ⟨u, hsu, hidle, hbuf, hres⟩

/-- Settles O27: the block is idle in the cycle after the frame, and accepts what the host presents then. -/
theorem heldCommandRunsAfterTheFrame : Obligations.HeldCommandRunsAfterTheFrame := by
  unfold Obligations.HeldCommandRunsAfterTheFrame
  rintro s w hl htakes hr hv rfl
  obtain ⟨u, hsu, hidle, hbuf, hres⟩ := after_frame_of_transmit hl htakes fun j hj => hr j (by omega)
  rw [← hsu.input] at hv ⊢
  have hrst : u.input.rst = false := hsu.input ▸ hr _ le_rfl
  have hacc := accepted_of_idle hidle hrst hv
  exact ⟨u, hsu, hacc, hbuf, hres, step_of_accepted (hsu.keeps_cfg ▸ hl) hacc⟩

/-! ## When the port is ready again (R199) -/

/-- After a step into IDLE the block is ready unless the host resets it in the next cycle. -/
theorem cmdReady_of_step {s t : State} (hst : step s = .next t) (hp : t.phase = .idle)
    (hr : (s.inputAt 1).rst = false) : cmdReady t = true :=
  cmdReady_iff.mpr ⟨hp, (After.one hst).input.symm ▸ hr⟩

/-- A legal configuration's accepted word that starts no frame has its effect in the next cycle, which is idle. -/
theorem step_of_accepted_no_frame {s : State} (hl : s.cfg.Legal) (hacc : accepted s = true)
    (hno : decode s.input.cmdWord ≠ .command (.transmit true)) :
    ∃ t, step s = .next t ∧ executeWord s.input.cmdWord s.nextCycle = .next t ∧ t.phase = .idle := by
  obtain ⟨t, hst⟩ := step_next_of_accepted hl hacc
  exact ⟨t, hst, (step_of_accepted hl hacc).symm.trans hst,
    step_keeps_idle hst (idle_of_accepted hacc) fun htakes => hno htakes.2⟩

/-- Settles O48: the row of a word that starts no frame, the two of TRANSMIT, and that of a reset. -/
theorem commandTiming : Obligations.CommandTiming := by
  unfold Obligations.CommandTiming
  intro s hl
  refine ⟨fun hacc hno => ?noFrame, fun htakes => ?frameStart, fun htakes hr => ?frame, fun hr => ?reset⟩
  case noFrame =>
    obtain ⟨t, hst, hexec, hidle⟩ := step_of_accepted_no_frame hl hacc hno
    exact ⟨t, hst, hexec, hidle, dout_of_idle hidle, cmdReady_of_step hst hidle⟩
  case frameStart =>
    have hst := step_of_transmit hl htakes
    exact ⟨_, hst, (step_of_takes hl htakes).symm.trans hst, rfl, rfl⟩
  case frame =>
    obtain ⟨-, -, hbusy, u, hsu, -, hready⟩ := frameIsBusyForFrameCyc s hl htakes fun j hj => hr j (by omega)
    refine ⟨fun k hk hk' => ?_, u, hsu, hready (hr _ le_rfl)⟩
    obtain ⟨v, hsv, -, hnot, -⟩ := hbusy k hk hk'
    exact ⟨v, hsv, hnot⟩
  case reset =>
    have hst := step_of_rst hl hr
    exact ⟨_, hst, rfl, rfl, cmdReady_of_step hst rfl⟩

end Sys2Proof.Machine
end

section
/-! That an idle block does not read the sequencer's position registers (10_state.md R26; 93_implementation_defined.md
I9). -/

namespace Sys2Proof.Machine

/-! ## States equal but for the position -/

/-- `s` with other values in the sequencer's position registers. -/
def State.withPosition (s : State) (byteIdx : BitVec 16) (bitIdx : BitVec 3) (cur : Bool) (cnt : BitVec 32) : State :=
  { s with byteIdx := byteIdx, bitIdx := bitIdx, cur := cur, cnt := cnt }

/-- `t'` is `t` but for the position registers, and is `t` itself unless `t` is idle. -/
def EqualButIdlePosition (t t' : State) : Prop :=
  (∃ byteIdx bitIdx cur cnt, t' = t.withPosition byteIdx bitIdx cur cnt) ∧ (t.phase ≠ .idle → t' = t)

theorem EqualButIdlePosition.refl (t : State) : EqualButIdlePosition t t := ⟨⟨_, _, _, _, rfl⟩, fun _ => rfl⟩

theorem equalButIdlePosition_of_idle {t t' : State} (hp : t.phase = .idle) {byteIdx : BitVec 16} {bitIdx : BitVec 3}
    {cur : Bool} {cnt : BitVec 32} (h : t' = t.withPosition byteIdx bitIdx cur cnt) : EqualButIdlePosition t t' :=
  ⟨⟨_, _, _, _, h⟩, fun hbusy => absurd hp hbusy⟩

theorem buffer_or_transmit (i : Instr) : isBufferCommand i = true ∨ ∃ p, i = .transmit p := by
  cases i with
  | transmit p => exact .inr ⟨p, rfl⟩
  | clear | setcolor | setrange => exact .inl rfl

/-! ## An idle cycle in two such states -/

/-- What a buffer command writes depends on the parameters and the buffer alone. -/
theorem exec_congr_of_isBufferCommand {i : Instr} (h : isBufferCommand i = true) (s : State) :
    ∃ (m : Memory) (res : ResultCode), ∀ u : State, u.cfg = s.cfg → u.buf = s.buf →
      exec i u = .next { u with buf := m, result := res } := by
  cases i with
  | clear p =>
    cases p
    · exact ⟨s.buf, .invalidArg, fun u _ hbuf => by rw [exec_clear_rejected, ← hbuf]⟩
    · exact ⟨_, .ok, fun u hcfg hbuf => by rw [exec_clear_performed, hcfg, hbuf]⟩
  | setcolor p r g b pos =>
    by_cases hv : p = true ∧ pos < s.cfg.n
    · obtain ⟨rfl, hpos⟩ := hv
      exact ⟨_, .ok, fun u hcfg hbuf => by rw [exec_setcolor_performed (hcfg ▸ hpos), hbuf]⟩
    · exact ⟨s.buf, .invalidArg, fun u hcfg hbuf => by rw [exec_setcolor_rejected (hcfg ▸ hv), ← hbuf]⟩
  | setrange p r g b start stop =>
    by_cases hv : p = true ∧ start < s.cfg.n ∧ stop < s.cfg.n ∧ start ≠ stop
    · obtain ⟨rfl, hspan⟩ := hv
      exact ⟨_, .ok, fun u hcfg hbuf => by rw [exec_setrange_performed (hcfg ▸ hspan), hbuf]⟩
    · exact ⟨s.buf, .invalidArg, fun u hcfg hbuf => by rw [exec_setrange_rejected (hcfg ▸ hv), ← hbuf]⟩
  | transmit p => simp [isBufferCommand] at h

section
variable {s : State} (hp : s.phase = .idle) (byteIdx : BitVec 16) (bitIdx : BitVec 3) (cur : Bool) (cnt : BitVec 32)
include hp

/-- In IDLE a command that starts no frame leaves the position registers as they are, and TRANSMIT sets them all. -/
theorem exec_withPosition (hn : 0 < s.cfg.nbytes) (i : Instr) :
    ∃ t t', exec i s = .next t ∧ exec i (s.withPosition byteIdx bitIdx cur cnt) = .next t' ∧
      EqualButIdlePosition t t' := by
  obtain hi | ⟨p, rfl⟩ := buffer_or_transmit i
  · obtain ⟨m, res, hexec⟩ := exec_congr_of_isBufferCommand hi s
    exact ⟨_, _, hexec s rfl rfl, hexec (s.withPosition byteIdx bitIdx cur cnt) rfl rfl,
      equalButIdlePosition_of_idle hp rfl⟩
  · cases p with
    | false => exact ⟨_, _, execTransmit_false s, execTransmit_false _, equalButIdlePosition_of_idle hp rfl⟩
    | true =>
      exact ⟨_, _, execTransmit_true hn, execTransmit_true (s := s.withPosition byteIdx bitIdx cur cnt) hn, .refl _⟩

theorem executeWord_withPosition (hn : 0 < s.cfg.nbytes) (w : CmdWord) :
    ∃ t t', executeWord w s = .next t ∧ executeWord w (s.withPosition byteIdx bitIdx cur cnt) = .next t' ∧
      EqualButIdlePosition t t' := by
  cases hd : decode w with
  | reserved why =>
    exact ⟨_, _, executeWord_of_reserved hd s, executeWord_of_reserved hd _, equalButIdlePosition_of_idle hp rfl⟩
  | command i => simpa only [executeWord, hd] using exec_withPosition hp byteIdx bitIdx cur cnt hn i

/-- An idle cycle resets, waits or executes a word. -/
theorem step_withPosition (hl : s.cfg.Legal) :
    ∃ t t', step s = .next t ∧ step (s.withPosition byteIdx bitIdx cur cnt) = .next t' ∧
      EqualButIdlePosition t t' := by
  cases hr : s.input.rst with
  | true =>
    exact ⟨_, _, step_of_rst hl hr, step_of_rst (s := s.withPosition byteIdx bitIdx cur cnt) hl hr, .refl _⟩
  | false =>
    cases hv : s.input.cmdValid with
    | false =>
      exact ⟨_, _, step_of_quiet hl hr hp hv,
        step_of_quiet (s := s.withPosition byteIdx bitIdx cur cnt) hl hr hp hv, equalButIdlePosition_of_idle hp rfl⟩
    | true =>
      rw [step_of_accepted hl (accepted_of_idle hp hr hv),
        step_of_accepted (s := s.withPosition byteIdx bitIdx cur cnt) hl (accepted_of_idle hp hr hv)]
      exact executeWord_withPosition (s := s.nextCycle) hp byteIdx bitIdx cur cnt hl.nbytes_pos _

end

/-- Settles O34: the two next states differ in the position registers at most, which no output reads, and not at all
once a frame has started. -/
theorem idlePositionIsNotRead : Obligations.IdlePositionIsNotRead := by
  unfold Obligations.IdlePositionIsNotRead
  intro s byteIdx bitIdx cur cnt hl hp
  obtain ⟨t, _, hst, hst', ⟨_, _, _, _, rfl⟩, heq⟩ := step_withPosition hp byteIdx bitIdx cur cnt hl
  exact ⟨t, _, hst, hst', rfl, rfl, rfl, rfl, rfl, rfl, rfl, rfl, fun hbusy => heq (busy_iff.mp hbusy)⟩

end Sys2Proof.Machine
end
